-- ==== Sys2Proof/Word.lean ====
section
/-! DEFINITION. The word types of the Chip-8 CORE: bytes, 16-bit words, register numbers (00_scope R6, R8; 10_state R20, R21). -/

namespace Sys2Proof

/-- An 8-bit value: a general register, a timer, a memory cell (R8). -/
abbrev Byte := BitVec 8

/-- A 16-bit value: the instruction word, I, PC, a stack entry (R8). -/
abbrev Word := BitVec 16

/-- The number of a general register, selected by a 4-bit field (R20). -/
abbrev Reg := Fin 16

/-- The flag register is V[15] (R21). -/
abbrev VF : Reg := 15

end Sys2Proof
end

