-- ==== Sys2Proof/Decode.lean ====
section
/-! DEFINITION. The encoding: fields (30_encoding R81), the decoder (R84 to R90), total on any word and any bytes and
rejecting by name, the encoder, and the opcode table of R84 as data. -/

namespace Sys2Proof

/-! ### Fields of the instruction word (R81) -/

def fieldClass (w : Word) : BitVec 4 := w.extractLsb' 12 4

def fieldX (w : Word) : Reg := (w.extractLsb' 8 4).toFin

def fieldY (w : Word) : Reg := (w.extractLsb' 4 4).toFin

def fieldN (w : Word) : BitVec 4 := w.extractLsb' 0 4

def fieldNn (w : Word) : Byte := w.extractLsb' 0 8

def fieldNnn (w : Word) : BitVec 12 := w.extractLsb' 0 12

/-! ### The decoder -/

/-- Why bytes are no instruction: one of the six unknown spaces of R90, with the sub-opcode found there, or too few bytes. -/
inductive DecodeError where
  | unknownClass0 (n : BitVec 4)
  | unknownClass5 (n : BitVec 4)
  | unknownClass8 (n : BitVec 4)
  | unknownClass9 (n : BitVec 4)
  | unknownClassE (nn : Byte)
  | unknownClassF (nn : Byte)
  | truncated
deriving DecidableEq, Repr

/-- Class 0 is keyed by its low nibble alone; `x` and `y` are ignored (R85). -/
def decodeClass0 (w : Word) : Except DecodeError Instr :=
  match fieldN w with
  | 0x0#4 => .ok .cls
  | 0xE#4 => .ok .ret
  | n => .error (.unknownClass0 n)

/-- The ALU group, keyed by the low nibble (R87). -/
def decodeClass8 (w : Word) : Except DecodeError Instr :=
  match fieldN w with
  | 0x0#4 => .ok (.ldReg (fieldX w) (fieldY w))
  | 0x1#4 => .ok (.or (fieldX w) (fieldY w))
  | 0x2#4 => .ok (.and (fieldX w) (fieldY w))
  | 0x3#4 => .ok (.xor (fieldX w) (fieldY w))
  | 0x4#4 => .ok (.addReg (fieldX w) (fieldY w))
  | 0x5#4 => .ok (.sub (fieldX w) (fieldY w))
  | 0x6#4 => .ok (.shr (fieldX w) (fieldY w))
  | 0x7#4 => .ok (.subn (fieldX w) (fieldY w))
  | 0xE#4 => .ok (.shl (fieldX w) (fieldY w))
  | n => .error (.unknownClass8 n)

/-- Class E is keyed by the low byte (R88). -/
def decodeClassE (w : Word) : Except DecodeError Instr :=
  match fieldNn w with
  | 0x9E#8 => .ok (.skp (fieldX w))
  | 0xA1#8 => .ok (.sknp (fieldX w))
  | nn => .error (.unknownClassE nn)

/-- Class F is keyed by the low byte (R89). -/
def decodeClassF (w : Word) : Except DecodeError Instr :=
  match fieldNn w with
  | 0x07#8 => .ok (.ldVxDt (fieldX w))
  | 0x0A#8 => .ok (.ldVxK (fieldX w))
  | 0x15#8 => .ok (.ldDtVx (fieldX w))
  | 0x18#8 => .ok (.ldStVx (fieldX w))
  | 0x1E#8 => .ok (.addI (fieldX w))
  | 0x29#8 => .ok (.ldF (fieldX w))
  | 0x33#8 => .ok (.ldB (fieldX w))
  | 0x55#8 => .ok (.stRegs (fieldX w))
  | 0x65#8 => .ok (.ldRegs (fieldX w))
  | nn => .error (.unknownClassF nn)

/-- The instruction a word stands for, by its class (R84); classes 5 and 9 require a zero low nibble (R86). -/
def decode (w : Word) : Except DecodeError Instr :=
  match fieldClass w with
  | 0x0#4 => decodeClass0 w
  | 0x1#4 => .ok (.jp (fieldNnn w))
  | 0x2#4 => .ok (.call (fieldNnn w))
  | 0x3#4 => .ok (.seImm (fieldX w) (fieldNn w))
  | 0x4#4 => .ok (.sneImm (fieldX w) (fieldNn w))
  | 0x5#4 => if fieldN w = 0 then .ok (.seReg (fieldX w) (fieldY w)) else .error (.unknownClass5 (fieldN w))
  | 0x6#4 => .ok (.ldImm (fieldX w) (fieldNn w))
  | 0x7#4 => .ok (.addImm (fieldX w) (fieldNn w))
  | 0x8#4 => decodeClass8 w
  | 0x9#4 => if fieldN w = 0 then .ok (.sneReg (fieldX w) (fieldY w)) else .error (.unknownClass9 (fieldN w))
  | 0xA#4 => .ok (.ldI (fieldNnn w))
  | 0xB#4 => .ok (.jpV0 (fieldNnn w))
  | 0xC#4 => .ok (.rnd (fieldX w) (fieldNn w))
  | 0xD#4 => .ok (.drw (fieldX w) (fieldY w) (fieldN w))
  | 0xE#4 => decodeClassE w
  | _ => decodeClassF w

/-- The word two bytes of memory form: the lower address holds the high byte (R52). -/
def wordOfBytes (hi lo : Byte) : Word := hi ++ lo

/-- Every instruction is two bytes (R80): the instruction at the head of `bytes` and the bytes after it. -/
def decodeBytes (bytes : List Byte) : Except DecodeError (Instr × List Byte) :=
  match bytes with
  | hi :: lo :: rest => (decode (wordOfBytes hi lo)).map fun i => (i, rest)
  | _ => .error .truncated

/-! ### The encoder -/

/-- The 4 bits that select a register (R20). -/
def regBits (r : Reg) : BitVec 4 := BitVec.ofFin r

/-- Formats XY, XYN (R82). -/
def asmXyn (cls : BitVec 4) (x y : Reg) (n : BitVec 4) : Word := cls ++ regBits x ++ regBits y ++ n

/-- Formats XNN, X (R82). -/
def asmXnn (cls : BitVec 4) (x : Reg) (nn : Byte) : Word := cls ++ regBits x ++ nn

/-- Format NNN (R82). -/
def asmNnn (cls : BitVec 4) (nnn : BitVec 12) : Word := cls ++ nnn

/-- The word of an instruction (R84); for CLS and RET, whose bits 11:4 the decoder ignores, the canonical word (R85). -/
def encode : Instr → Word
  | .cls => 0x00E0
  | .ret => 0x00EE
  | .jp nnn => asmNnn 0x1 nnn
  | .call nnn => asmNnn 0x2 nnn
  | .seImm x nn => asmXnn 0x3 x nn
  | .sneImm x nn => asmXnn 0x4 x nn
  | .seReg x y => asmXyn 0x5 x y 0x0
  | .sneReg x y => asmXyn 0x9 x y 0x0
  | .ldImm x nn => asmXnn 0x6 x nn
  | .addImm x nn => asmXnn 0x7 x nn
  | .ldReg x y => asmXyn 0x8 x y 0x0
  | .or x y => asmXyn 0x8 x y 0x1
  | .and x y => asmXyn 0x8 x y 0x2
  | .xor x y => asmXyn 0x8 x y 0x3
  | .addReg x y => asmXyn 0x8 x y 0x4
  | .sub x y => asmXyn 0x8 x y 0x5
  | .shr x y => asmXyn 0x8 x y 0x6
  | .subn x y => asmXyn 0x8 x y 0x7
  | .shl x y => asmXyn 0x8 x y 0xE
  | .ldI nnn => asmNnn 0xA nnn
  | .jpV0 nnn => asmNnn 0xB nnn
  | .rnd x nn => asmXnn 0xC x nn
  | .drw x y n => asmXyn 0xD x y n
  | .skp x => asmXnn 0xE x 0x9E
  | .sknp x => asmXnn 0xE x 0xA1
  | .ldVxDt x => asmXnn 0xF x 0x07
  | .ldVxK x => asmXnn 0xF x 0x0A
  | .ldDtVx x => asmXnn 0xF x 0x15
  | .ldStVx x => asmXnn 0xF x 0x18
  | .addI x => asmXnn 0xF x 0x1E
  | .ldF x => asmXnn 0xF x 0x29
  | .ldB x => asmXnn 0xF x 0x33
  | .stRegs x => asmXnn 0xF x 0x55
  | .ldRegs x => asmXnn 0xF x 0x65

/-- The bytes of a word as memory holds them (R52). -/
def bytesOfWord (w : Word) : List Byte := [w.extractLsb' 8 8, w.extractLsb' 0 8]

/-- The two bytes of an instruction as memory holds them (R52, R80). -/
def encodeBytes (i : Instr) : List Byte := bytesOfWord (encode i)

/-! ### The opcode table of R84 as data -/

/-- A row of R84: a word `w` selects it when `w &&& mask = pattern`, and then means `build w`. -/
structure OpRow where
  mnemonic : String
  mask : Word
  pattern : Word
  build : Word → Instr

def OpRow.matches (r : OpRow) (w : Word) : Bool := w &&& r.mask == r.pattern

/-- Rows 1 to 10 of R84: control transfer and immediates. -/
def opRowsControl : List OpRow :=
  [ ⟨"CLS", 0xF00F, 0x0000, fun _ => .cls⟩,
    ⟨"RET", 0xF00F, 0x000E, fun _ => .ret⟩,
    ⟨"JP", 0xF000, 0x1000, fun w => .jp (fieldNnn w)⟩,
    ⟨"CALL", 0xF000, 0x2000, fun w => .call (fieldNnn w)⟩,
    ⟨"SE_IMM", 0xF000, 0x3000, fun w => .seImm (fieldX w) (fieldNn w)⟩,
    ⟨"SNE_IMM", 0xF000, 0x4000, fun w => .sneImm (fieldX w) (fieldNn w)⟩,
    ⟨"SE_REG", 0xF00F, 0x5000, fun w => .seReg (fieldX w) (fieldY w)⟩,
    ⟨"SNE_REG", 0xF00F, 0x9000, fun w => .sneReg (fieldX w) (fieldY w)⟩,
    ⟨"LD_IMM", 0xF000, 0x6000, fun w => .ldImm (fieldX w) (fieldNn w)⟩,
    ⟨"ADD_IMM", 0xF000, 0x7000, fun w => .addImm (fieldX w) (fieldNn w)⟩ ]

/-- Rows 11 to 19 of R84: the ALU group. -/
def opRowsAlu : List OpRow :=
  [ ⟨"LD_REG", 0xF00F, 0x8000, fun w => .ldReg (fieldX w) (fieldY w)⟩,
    ⟨"OR", 0xF00F, 0x8001, fun w => .or (fieldX w) (fieldY w)⟩,
    ⟨"AND", 0xF00F, 0x8002, fun w => .and (fieldX w) (fieldY w)⟩,
    ⟨"XOR", 0xF00F, 0x8003, fun w => .xor (fieldX w) (fieldY w)⟩,
    ⟨"ADD_REG", 0xF00F, 0x8004, fun w => .addReg (fieldX w) (fieldY w)⟩,
    ⟨"SUB", 0xF00F, 0x8005, fun w => .sub (fieldX w) (fieldY w)⟩,
    ⟨"SHR", 0xF00F, 0x8006, fun w => .shr (fieldX w) (fieldY w)⟩,
    ⟨"SUBN", 0xF00F, 0x8007, fun w => .subn (fieldX w) (fieldY w)⟩,
    ⟨"SHL", 0xF00F, 0x800E, fun w => .shl (fieldX w) (fieldY w)⟩ ]

/-- Rows 20 to 34 of R84: index, random, display, keypad, timers and memory. -/
def opRowsRest : List OpRow :=
  [ ⟨"LD_I", 0xF000, 0xA000, fun w => .ldI (fieldNnn w)⟩,
    ⟨"JP_V0", 0xF000, 0xB000, fun w => .jpV0 (fieldNnn w)⟩,
    ⟨"RND", 0xF000, 0xC000, fun w => .rnd (fieldX w) (fieldNn w)⟩,
    ⟨"DRW", 0xF000, 0xD000, fun w => .drw (fieldX w) (fieldY w) (fieldN w)⟩,
    ⟨"SKP", 0xF0FF, 0xE09E, fun w => .skp (fieldX w)⟩,
    ⟨"SKNP", 0xF0FF, 0xE0A1, fun w => .sknp (fieldX w)⟩,
    ⟨"LD_VX_DT", 0xF0FF, 0xF007, fun w => .ldVxDt (fieldX w)⟩,
    ⟨"LD_VX_K", 0xF0FF, 0xF00A, fun w => .ldVxK (fieldX w)⟩,
    ⟨"LD_DT_VX", 0xF0FF, 0xF015, fun w => .ldDtVx (fieldX w)⟩,
    ⟨"LD_ST_VX", 0xF0FF, 0xF018, fun w => .ldStVx (fieldX w)⟩,
    ⟨"ADD_I", 0xF0FF, 0xF01E, fun w => .addI (fieldX w)⟩,
    ⟨"LD_F", 0xF0FF, 0xF029, fun w => .ldF (fieldX w)⟩,
    ⟨"LD_B", 0xF0FF, 0xF033, fun w => .ldB (fieldX w)⟩,
    ⟨"ST_REGS", 0xF0FF, 0xF055, fun w => .stRegs (fieldX w)⟩,
    ⟨"LD_REGS", 0xF0FF, 0xF065, fun w => .ldRegs (fieldX w)⟩ ]

/-- The complete map, 34 rows in the order of R84. -/
def opcodeTable : List OpRow := opRowsControl ++ opRowsAlu ++ opRowsRest

/-! ### The table's numbering -/

/-- The bytes in memory of the word whose bits, numbered as spec/opcode_table.json numbers them, are `w`; bits from
`nbits` up are 0. The table's word is 16 bits, so its bits 15:8 are the byte at the lower address (R52, R81). -/
def tableBytes (nbits w : Nat) : List Byte := bytesOfWord (BitVec.ofNat 16 (w % 2 ^ nbits))

/-- What the decoder reads from a row's word. -/
def decodeTableWord (nbits w : Nat) : Option Instr :=
  match decodeBytes (tableBytes nbits w) with
  | .ok (i, _) => some i
  | .error _ => none

end Sys2Proof
end

