-- ==== Sys2Proof/Config.lean ====
section
/-! DEFINITION. The parameters of the hardware (00_scope R4), the default glyph table (20_memory R51) and the two values
the model leaves free: the session's SHIFT_SRC and the random bytes nobody has supplied. -/

namespace Sys2Proof

/-- `SHIFT_SRC`: which register SHR and SHL read (R4, R32). -/
inductive ShiftSrc where
  | x
  | y
deriving DecidableEq, Repr, Inhabited

/-- `MEM_SIZE` (R4): addresses 0 to 4095. -/
abbrev Config.memSize : Nat := 4096

/-- `LOAD_OFFSET` (R4): first address of the program image and lowest writable address. -/
abbrev Config.loadOffset : Nat := 0x200

/-- `ROM_MAX` (R4): `MEM_SIZE - LOAD_OFFSET`. -/
abbrev Config.romMax : Nat := 3584

/-- The highest PC from which both bytes of an instruction lie in memory (R201). -/
abbrev Config.maxFetchPc : Nat := 4094

/-- `GLYPH_HEIGHT` (R4). -/
abbrev Config.glyphHeight : Nat := 5

/-- `GLYPH_LEN` (R4). -/
abbrev Config.glyphLen : Nat := 80

/-- The default `GLYPH_TABLE` of R51, one row of 5 bytes per digit. PRESUMED (log 3): the spec supplies it from general
knowledge as "the default a model should take"; the table itself is an OPEN parameter, an argument of Reset. -/
def Config.defaultGlyphs : List Byte :=
  [0xF0, 0x90, 0x90, 0x90, 0xF0] ++ [0x20, 0x60, 0x20, 0x20, 0x70] ++
  [0xF0, 0x10, 0xF0, 0x80, 0xF0] ++ [0xF0, 0x10, 0xF0, 0x10, 0xF0] ++
  [0x90, 0x90, 0xF0, 0x10, 0x10] ++ [0xF0, 0x80, 0xF0, 0x10, 0xF0] ++
  [0xF0, 0x80, 0xF0, 0x90, 0xF0] ++ [0xF0, 0x10, 0x20, 0x40, 0x40] ++
  [0xF0, 0x90, 0xF0, 0x90, 0xF0] ++ [0xF0, 0x90, 0xF0, 0x10, 0xF0] ++
  [0xF0, 0x90, 0xF0, 0x90, 0x90] ++ [0xE0, 0x90, 0xE0, 0x90, 0xE0] ++
  [0xF0, 0x80, 0x80, 0x80, 0xF0] ++ [0xE0, 0x90, 0x90, 0x90, 0xE0] ++
  [0xF0, 0x80, 0xF0, 0x80, 0xF0] ++ [0xF0, 0x80, 0xF0, 0x80, 0x80]

/-- The `SHIFT_SRC` of the session that `State.reset` begins. OPEN, no default (R4, R32, decision D16): no body, so that
no claim can rest on either choice (log 2). -/
opaque Config.shiftSrc : ShiftSrc

/-- The random bytes that arrive when the host has supplied none (R170, R216): any sequence, under no law, so no body (log 1). -/
opaque Config.randByte : Nat → Byte

end Sys2Proof
end

