-- ==== Sys2Proof/Machine/State.lean ====
section
/-! DEFINITION. Everything the spec gives the machine (10_state.md), as plain data, and its value after reset (R34). -/

namespace Sys2Proof.Machine

/-- The five fatal conditions (60_exceptions R200). In this machine a fault is an entry into HALTED, a NEXT state that
holds the condition in `FAULT_CAUSE` (R207): no step answers `Host.Outcome.fault` with one (log 4). -/
inductive Fault where
  /-- Code 1: CALL with SP = 16 (R202). Recorded by the entry into HALTED: safe, the spec's own effect. -/
  | stackOverflow
  /-- Code 2: RET with SP = 0 (R203). Recorded by the entry into HALTED: safe, the spec's own effect. -/
  | stackUnderflow
  /-- Code 3: a Step in RUNNING with PC above 4094 (R201). Recorded by the entry into HALTED: safe, the spec's own effect. -/
  | pcOutOfBounds
  /-- Code 4: DRW, LD_B, ST_REGS or LD_REGS reaching an address above 4095 (R204). Recorded by the entry into HALTED:
  safe; the spec's decision D9. -/
  | dataAddressOutOfBounds
  /-- Code 5: LD_B or ST_REGS writing below 0x200 (R205). Recorded by the entry into HALTED: safe; the spec's decision D10. -/
  | writeProtected
deriving DecidableEq, Repr

/-- Why a transition has no meaning. -/
inductive Refusal where
  /-- An instruction without a meaning in this model, by its mnemonic: no arm of `exec` answers this. Safe. -/
  | notModelled (mnemonic : String)
  /-- `Reset(rom)` with more than 3584 bytes: "a model refuses such a Reset and leaves the state as it was" (R220). Safe. -/
  | romTooLarge
  /-- `SetKey(k, b)` with k above 15, "not a legal argument" (R214, 93_implementation_defined S15). Safe. -/
  | keyOutOfRange
deriving DecidableEq, Repr

/-- `RUN_STATE` (R29). -/
inductive RunState where
  | running
  | awaitingKey
  | halted
deriving DecidableEq, Repr

/-- The display buffer, `DISP[r][c]` at row `r` and column `c` (R26). -/
abbrev Display := Vector (Vector Bool 64) 32

/-- Memory: the cells that differ from `Memory.resetByte`, addresses rising (`Memory.wf`). -/
abbrev Memory := List Host.Cell

/-- The machine (10_state.md section 1), then the session parameter and the model's two fields of the random input. -/
structure State where
  /-- `V[0..15]` (R20, R21). -/
  v : Vector Byte 16
  /-- `I` (R22). -/
  i : Word
  /-- `PC` (R23). -/
  pc : Word
  /-- `SP`, the number of valid stack entries, 0 to 16 (R24). -/
  sp : Fin 17
  /-- `STACK[0..15]` (R24). -/
  stack : Vector Word 16
  /-- `DT` (R25). -/
  dt : Byte
  /-- `ST` (R25). -/
  st : Byte
  /-- `DISP` (R26). -/
  disp : Display
  /-- `KEY[0..15]`, true when pressed (R27). -/
  key : Vector Bool 16
  /-- `MEM[0..4095]` (R28). -/
  mem : Memory
  /-- `RUN_STATE` (R29). -/
  runState : RunState
  /-- `FAULT_CAUSE`: `none` is code 0 (R30). -/
  faultCause : Option Fault
  /-- `WAIT_X` (R31). -/
  waitX : Reg
  /-- `SHIFT_SRC`, a parameter of the session and not state of the spec (R32): only Reset sets it (R239, log 2). -/
  shiftSrc : ShiftSrc
  /-- The model's own: `rand` bytes the host has supplied and no RND has read (R216, log 1). -/
  randIn : List Byte
  /-- The model's own: how many free random bytes have been read (log 1). -/
  randIx : Nat
deriving DecidableEq, Repr

/-- After `Reset` with an empty program and the default glyph table (R34, R230, R231). The spec's table gives every value
but the last three (logs 1, 2); DISP, KEY, RUN_STATE, FAULT_CAUSE and WAIT_X are its decision D17 (log 8). -/
def State.reset : State where
  v := Vector.replicate 16 0
  i := 0
  pc := 0x200
  sp := 0
  stack := Vector.replicate 16 0
  dt := 0
  st := 0
  disp := Vector.replicate 32 (Vector.replicate 64 false)
  key := Vector.replicate 16 false
  mem := []
  runState := .running
  faultCause := none
  waitX := 0
  shiftSrc := Config.shiftSrc
  randIn := []
  randIx := 0

end Sys2Proof.Machine
end

