-- ==== Sys2Proof/Machine/Memory.lean ====
section
/-! DEFINITION. Memory as data (20_memory R50, R51): what an unlisted address reads as, one byte read and written, runs of
bytes, and the canonical form that every operation keeps. -/

namespace Sys2Proof.Machine

/-- The byte address `a` holds after Reset with an empty program (R34): the default glyph table in 0x000..0x04F (log 3),
0 above it. -/
def Memory.resetByte (a : Nat) : Byte := Config.defaultGlyphs.getD a 0

/-- The byte at address `a`. -/
def Memory.read : Memory → Nat → Byte
  | [], a => Memory.resetByte a
  | (b, v) :: rest, a => if a = b then v else Memory.read rest a

/-- `m` with the cell at `a` listed as `v`, addresses still rising. -/
def Memory.insert (a : Nat) (v : Byte) : Memory → Memory
  | [] => [(a, v)]
  | (b, u) :: rest =>
    if a < b then (a, v) :: (b, u) :: rest
    else if a = b then (a, v) :: rest
    else (b, u) :: Memory.insert a v rest

/-- `m` with no cell listed at `a`. -/
def Memory.erase (a : Nat) : Memory → Memory
  | [] => []
  | (b, u) :: rest => if a = b then Memory.erase a rest else (b, u) :: Memory.erase a rest

/-- Byte `v` stored at `a`, the canonical form kept. There is no byte above 4095 to store to (R50): the bounds are
checked, and the fault raised, before this is reached (R56, R58). -/
def Memory.write (m : Memory) (a : Nat) (v : Byte) : Memory :=
  if a < Config.memSize then
    if v = Memory.resetByte a then Memory.erase a m else Memory.insert a v m
  else m

/-- The bytes `vs` stored at `a`, `a + 1`, ... in increasing order (R52). -/
def Memory.writeBytes (m : Memory) (a : Nat) : List Byte → Memory
  | [] => m
  | v :: vs => Memory.writeBytes (Memory.write m a v) (a + 1) vs

/-- The `len` bytes from `a` on, lowest address first (R52). -/
def Memory.readBytes (m : Memory) (a : Nat) : Nat → List Byte
  | 0 => []
  | len + 1 => Memory.read m a :: Memory.readBytes m (a + 1) len

/-- The canonical form from address `lo` on: addresses rising and below 4096, no entry equal to its reset byte. -/
def Memory.wfFrom (lo : Nat) : Memory → Bool
  | [] => true
  | (a, v) :: rest =>
    decide (lo ≤ a) && decide (a < Config.memSize) && decide (v ≠ Memory.resetByte a) && Memory.wfFrom (a + 1) rest

/-- The one canonical form of a memory. -/
def Memory.wf (m : Memory) : Bool := Memory.wfFrom 0 m

end Sys2Proof.Machine
end

