-- ==== Sys2Proof/Machine/Ops.lean ====
section
/-! DEFINITION. The named operations over registers, stack, memory, run state and the random input that every meaning is
written with, and fault entry as one operation (60_exceptions R207). -/

namespace Sys2Proof.Machine

/-! ### Registers -/

/-- `V[x] <- b` (R7, R20). -/
def State.setV (s : State) (x : Reg) (b : Byte) : State := { s with v := s.v.set x b }

/-- `I <- w` (R22). -/
def State.setI (s : State) (w : Word) : State := { s with i := w }

/-- `pc <- target` (R7); the target is not checked when it is written (R108 e). -/
def State.setPc (s : State) (target : Word) : State := { s with pc := target }

/-- The base advance of every instruction (R23, R91). -/
def State.advancePc (s : State) : State := s.setPc (s.pc + 2)

/-- A skip: "exactly one further 2" when the condition holds (R108 c). -/
def State.skipIf (s : State) (c : Bool) : State := if c then s.setPc (s.pc + 2) else s

def State.setDt (s : State) (b : Byte) : State := { s with dt := b }

def State.setSt (s : State) (b : Byte) : State := { s with st := b }

def State.setDisp (s : State) (d : Display) : State := { s with disp := d }

/-! ### Fault entry and run state -/

/-- Fault entry, the one operation every fault goes through (R207): `RUN_STATE <- HALTED`, `FAULT_CAUSE <- c`, nothing
saved, nothing else changed. There is no return from a fault: only Reset leaves HALTED (R208). -/
def State.raise (s : State) (c : Fault) : State := { s with runState := .halted, faultCause := some c }

/-- `RUN_STATE` as its 2-bit code (R29, decision D8). -/
def RunState.code : RunState → BitVec 2
  | .running => 0
  | .awaitingKey => 1
  | .halted => 2

/-- `FAULT_CAUSE` as its 3-bit code (R30, decision D8). -/
def faultCode : Option Fault → BitVec 3
  | none => 0
  | some .stackOverflow => 1
  | some .stackUnderflow => 2
  | some .pcOutOfBounds => 3
  | some .dataAddressOutOfBounds => 4
  | some .writeProtected => 5

/-! ### The call stack (R24) -/

/-- `STACK[SP] <- w; SP <- SP + 1`, or nothing when the stack is full. -/
def State.push (s : State) (w : Word) : Option State :=
  if h : s.sp.val < 16 then
    some { s with stack := s.stack.set s.sp.val w, sp := ⟨s.sp.val + 1, by omega⟩ }
  else none

/-- `SP <- SP - 1; value = STACK[SP]`, or nothing when the stack is empty; the slot keeps its value. -/
def State.pop (s : State) : Option (Word × State) :=
  if h : 0 < s.sp.val then
    some (s.stack[s.sp.val - 1], { s with sp := ⟨s.sp.val - 1, by omega⟩ })
  else none

/-! ### Memory access (R55 to R58) -/

/-- The fault a read of `len` bytes from `addr` raises: any byte above 4095 (R55, R204); a range of no bytes raises none. -/
def readFault (addr len : Nat) : Option Fault :=
  if len ≠ 0 ∧ addr + len > Config.memSize then some .dataAddressOutOfBounds else none

/-- The fault a store of `len` bytes from `addr` raises: any byte below 0x200 (R205), or above 4095 (R204). -/
def writeFault (addr len : Nat) : Option Fault :=
  if len = 0 then none
  else if addr < Config.loadOffset then some .writeProtected
  else if addr + len > Config.memSize then some .dataAddressOutOfBounds
  else none

/-- `MemRead` of the bytes `addr .. addr + len - 1`, the whole range checked first (R55, R58). -/
def State.load (s : State) (addr len : Nat) : Except Fault (List Byte) :=
  match readFault addr len with
  | some c => .error c
  | none => .ok (s.mem.readBytes addr len)

/-- `MemWrite` of `bytes` to `addr`, `addr + 1`, ..., the whole range checked first (R56, R58). -/
def State.store (s : State) (addr : Nat) (bytes : List Byte) : Except Fault State :=
  match writeFault addr bytes.length with
  | some c => .error c
  | none => .ok { s with mem := s.mem.writeBytes addr bytes }

/-- `MemRead(addr, 1)` (R55). -/
def State.memRead (s : State) (addr : Nat) : Except Fault Byte :=
  (s.load addr 1).map fun bytes => bytes.headD 0

/-- `MemWrite(addr, 1, v)` (R56). -/
def State.memWrite (s : State) (addr : Nat) (v : Byte) : Except Fault State := s.store addr [v]

/-! ### Instruction fetch (R52) -/

/-- The word at PC: `MEM[PC] || MEM[PC+1]`. -/
def State.fetchWord (s : State) : Word := wordOfBytes (s.mem.read s.pc.toNat) (s.mem.read (s.pc.toNat + 1))

/-! ### Keypad (R27) -/

/-- The least `k` with `KEY[k] = 1`, if any key is pressed (R174). -/
def State.leastKey (s : State) : Option (Fin 16) := (List.finRange 16).find? fun k => s.key[k]

/-! ### The random input (R170, R216, log 1) -/

/-- The `rand` argument an RND of this Step reads: the byte the host supplied, or the next free byte. -/
def State.rand (s : State) : Byte :=
  match s.randIn with
  | b :: _ => b
  | [] => Config.randByte s.randIx

/-- That byte is used up. -/
def State.takeRand (s : State) : State :=
  match s.randIn with
  | _ :: rest => { s with randIn := rest }
  | [] => { s with randIx := s.randIx + 1 }

end Sys2Proof.Machine
end

