-- ==== Sys2Proof/Machine/Operands.lean ====
section
/-! DEFINITION. Every operand form: registers, zero-extended immediates (R83), the effective address (R57), the key number
(R171), the shift source (R32), the register block and the decimal digits. -/

namespace Sys2Proof.Machine

/-- `V[x]` (R7). -/
abbrev State.reg (s : State) (x : Reg) : Byte := s.v[x]

/-- `zext_16(nnn)` (R83): addresses as they stand in the word. -/
def zextNnn (nnn : BitVec 12) : Word := nnn.setWidth 16

/-- The target of JP_V0: `nnn + V[0]`, which fits in 16 bits (R107). -/
def State.offsetTarget (s : State) (nnn : BitVec 12) : Word := zextNnn nnn + (s.reg 0).setWidth 16

/-- The address of byte `k` of an access through I: the integer `I + k`, never reduced (R57). -/
def State.effAddr (s : State) (k : Nat) : Nat := s.i.toNat + k

/-- The keypad cell a register selects: its low 4 bits (R171, decision D11, log 11). -/
def keySelect (b : Byte) : Fin 16 := (b.extractLsb' 0 4).toFin

/-- The register SHR and SHL read (R129, R131). -/
def shiftOperand (src : ShiftSrc) (x y : Reg) (s : State) : Byte :=
  match src with
  | .x => s.reg x
  | .y => s.reg y

/-- The address of the glyph of `V[x]`: the whole register times 5, no mask (R142). -/
def glyphAddr (b : Byte) : Word := b.setWidth 16 * 5

/-- Hundreds, tens and units of a byte (R143). -/
def bcdDigits (b : Byte) : List Byte :=
  [BitVec.ofNat 8 (b.toNat / 100), BitVec.ofNat 8 (b.toNat / 10 % 10), BitVec.ofNat 8 (b.toNat % 10)]

/-- `V[0] .. V[x]`, the block ST_REGS stores (R144). -/
def State.regBlock (s : State) (x : Reg) : List Byte := s.v.toList.take (x.val + 1)

/-- `V[0] .. V[x]` replaced by `bytes`, registers above `V[x]` kept (R145). -/
def State.setRegBlock (s : State) (x : Reg) (bytes : List Byte) : State :=
  { s with v := Vector.ofFn fun k : Fin 16 => if k ≤ x then bytes.getD k.val 0 else s.v[k] }

end Sys2Proof.Machine
end

