-- ==== Sys2Proof/Machine/Flags.lean ====
section
/-! DEFINITION. Every flag the hardware computes, as the byte written to VF (10_state R21, 41_load_alu R122), and the one
operation that writes a result and then the flag. -/

namespace Sys2Proof.Machine

/-- A flag is the byte 0 or 1 (R122 d). -/
def flagByte (c : Bool) : Byte := if c then 1 else 0

/-- Carry of a sum: 1 iff it exceeds 255 (R127). -/
def carryFlag (a b : Byte) : Byte := flagByte (a.toNat + b.toNat > 255)

/-- Not borrow of `a - b`: 1 iff `a >= b` (R128, R130). -/
def notBorrowFlag (a b : Byte) : Byte := flagByte (a.toNat ≥ b.toNat)

/-- The bit a right shift by one drops: bit 0 (R129, decision D27, log 13). -/
def shiftedOutRight (b : Byte) : Byte := flagByte (b.getLsbD 0)

/-- The bit a left shift by one drops: bit 7 (R131, decision D27, log 13). -/
def shiftedOutLeft (b : Byte) : Byte := flagByte (b.getLsbD 7)

/-- "value first, flag overwrite second" (R122 b): with `x = 0xF` the flag replaces the result. -/
def State.setWithFlag (s : State) (x : Reg) (result flag : Byte) : State := (s.setV x result).setV VF flag

end Sys2Proof.Machine
end

