-- ==== Sys2Proof/Machine/Display.lean ====
section
/-! DEFINITION. The display instructions (43_display.md): the full clear, and the XOR-mode sprite writer with modulo wrap
and collision detection. -/

namespace Sys2Proof.Machine

/-- The clear display (R160). -/
def Display.clear : Display := Vector.replicate 32 (Vector.replicate 64 false)

/-- `DISP[r][c]` (R26). -/
def Display.cell (d : Display) (p : Fin 32 × Fin 64) : Bool := d[p.1][p.2]

/-- `DISP[r][c] <- DISP[r][c] xor 1` (R161). -/
def Display.toggle (d : Display) (p : Fin 32 × Fin 64) : Display := d.set p.1 (d[p.1].set p.2 (!d.cell p))

/-- The cell at an integer row and column: `mod 32`, `mod 64` (R161). -/
def wrapCell (row col : Nat) : Fin 32 × Fin 64 := (Fin.ofNat 32 row, Fin.ofNat 64 col)

/-- The cells one sprite byte toggles, drawn from column `vx` in row `row`: bit 7 is sprite column 0 (R161, decision D14,
log 12). -/
def rowCells (vx row : Nat) (b : Byte) : List (Fin 32 × Fin 64) :=
  ((List.range 8).filter fun col => b.getLsbD (7 - col)).map fun col => wrapCell row (vx + col)

/-- The cells a sprite toggles, in the order of R161: one byte a row from `vy` down. -/
def spriteCells (vx : Nat) (vy : Nat) : List Byte → List (Fin 32 × Fin 64)
  | [] => []
  | b :: rows => rowCells vx vy b ++ spriteCells vx (vy + 1) rows

/-- Toggle the cells one after another; the flag records whether any toggle met a set cell (R161). -/
def plotCells (d : Display) (collision : Bool) : List (Fin 32 × Fin 64) → Display × Bool
  | [] => (d, collision)
  | p :: ps => plotCells (d.toggle p) (collision || d.cell p) ps

/-- The sprite `rows` drawn at `(V[x], V[y])`, then VF written; both coordinates are read first (R161). -/
def State.drawSprite (s : State) (x y : Reg) (rows : List Byte) : State :=
  let drawn := plotCells s.disp false (spriteCells (s.reg x).toNat (s.reg y).toNat rows)
  (s.setDisp drawn.1).setV VF (flagByte drawn.2)

/-- CLS (R160): no flag. -/
def execCls (s : State) : Host.Outcome State Fault Refusal := .next (s.setDisp Display.clear)

/-- DRW Vx, Vy, n (R161): the whole sprite is checked before anything is drawn. -/
def execDrw (x y : Reg) (n : BitVec 4) (s : State) : Host.Outcome State Fault Refusal :=
  match s.load (s.effAddr 0) n.toNat with
  | .ok rows => .next (s.drawSprite x y rows)
  | .error c => .next (s.raise c)

end Sys2Proof.Machine
end

