-- ==== Sys2Proof/Machine/IndexMemory.lean ====
section
/-! DEFINITION. Index register and memory instructions (42_index_memory.md). No access through I changes I. -/

namespace Sys2Proof.Machine

/-- LD I, nnn (R140). -/
def execLdI (nnn : BitVec 12) (s : State) : Host.Outcome State Fault Refusal := .next (s.setI (zextNnn nnn))

/-- ADD I, Vx (R141): wraps at 16 bits, no flag. -/
def execAddI (x : Reg) (s : State) : Host.Outcome State Fault Refusal := .next (s.setI (s.i + (s.reg x).setWidth 16))

/-- LD F, Vx (R142). -/
def execLdF (x : Reg) (s : State) : Host.Outcome State Fault Refusal := .next (s.setI (glyphAddr (s.reg x)))

/-- A store through I that completes, or faults having written nothing (R58). -/
def storeThroughI (bytes : List Byte) (s : State) : State :=
  match s.store (s.effAddr 0) bytes with
  | .ok t => t
  | .error c => s.raise c

/-- LD B, Vx (R143). -/
def execLdB (x : Reg) (s : State) : Host.Outcome State Fault Refusal := .next (storeThroughI (bcdDigits (s.reg x)) s)

/-- LD [I], Vx (R144). -/
def execStRegs (x : Reg) (s : State) : Host.Outcome State Fault Refusal := .next (storeThroughI (s.regBlock x) s)

/-- LD Vx, [I] (R145): no register is loaded when the range faults. -/
def execLdRegs (x : Reg) (s : State) : Host.Outcome State Fault Refusal :=
  match s.load (s.effAddr 0) (x.val + 1) with
  | .ok bytes => .next (s.setRegBlock x bytes)
  | .error c => .next (s.raise c)

end Sys2Proof.Machine
end

