-- ==== Sys2Proof/Machine/LoadAlu.lean ====
section
/-! DEFINITION. Register load, immediate add and the ALU group (41_load_alu.md). Operands are read before anything is
written (R122 b, decision D18, log 14). -/

namespace Sys2Proof.Machine

/-- LD Vx, nn (R120). -/
def execLdImm (x : Reg) (nn : Byte) (s : State) : Host.Outcome State Fault Refusal := .next (s.setV x nn)

/-- ADD Vx, nn (R121): no flag. -/
def execAddImm (x : Reg) (nn : Byte) (s : State) : Host.Outcome State Fault Refusal := .next (s.setV x (s.reg x + nn))

/-- LD Vx, Vy (R123). -/
def execLdReg (x y : Reg) (s : State) : Host.Outcome State Fault Refusal := .next (s.setV x (s.reg y))

/-- OR Vx, Vy (R124): no flag. -/
def execOr (x y : Reg) (s : State) : Host.Outcome State Fault Refusal := .next (s.setV x (s.reg x ||| s.reg y))

/-- AND Vx, Vy (R125): no flag. -/
def execAnd (x y : Reg) (s : State) : Host.Outcome State Fault Refusal := .next (s.setV x (s.reg x &&& s.reg y))

/-- XOR Vx, Vy (R126): no flag. -/
def execXor (x y : Reg) (s : State) : Host.Outcome State Fault Refusal := .next (s.setV x (s.reg x ^^^ s.reg y))

/-- ADD Vx, Vy (R127). -/
def execAddReg (x y : Reg) (s : State) : Host.Outcome State Fault Refusal :=
  .next (s.setWithFlag x (s.reg x + s.reg y) (carryFlag (s.reg x) (s.reg y)))

/-- SUB Vx, Vy (R128). -/
def execSub (x y : Reg) (s : State) : Host.Outcome State Fault Refusal :=
  .next (s.setWithFlag x (s.reg x - s.reg y) (notBorrowFlag (s.reg x) (s.reg y)))

/-- SHR Vx, Vy with a given SHIFT_SRC (R129). -/
def shrWith (src : ShiftSrc) (x y : Reg) (s : State) : State :=
  s.setWithFlag x (shiftOperand src x y s >>> 1) (shiftedOutRight (shiftOperand src x y s))

/-- SHR Vx, Vy (R129), with the session's SHIFT_SRC. -/
def execShr (x y : Reg) (s : State) : Host.Outcome State Fault Refusal := .next (shrWith s.shiftSrc x y s)

/-- SUBN Vx, Vy (R130): SUB with the operands exchanged. -/
def execSubn (x y : Reg) (s : State) : Host.Outcome State Fault Refusal :=
  .next (s.setWithFlag x (s.reg y - s.reg x) (notBorrowFlag (s.reg y) (s.reg x)))

/-- SHL Vx, Vy with a given SHIFT_SRC (R131). -/
def shlWith (src : ShiftSrc) (x y : Reg) (s : State) : State :=
  s.setWithFlag x (shiftOperand src x y s <<< 1) (shiftedOutLeft (shiftOperand src x y s))

/-- SHL Vx, Vy (R131), with the session's SHIFT_SRC. -/
def execShl (x y : Reg) (s : State) : Host.Outcome State Fault Refusal := .next (shlWith s.shiftSrc x y s)

end Sys2Proof.Machine
end

