-- ==== Sys2Proof/Machine/TimerKeyRandom.lean ====
section
/-! DEFINITION. Random, keypad and timer instructions (44_timer_key_random.md). -/

namespace Sys2Proof.Machine

/-- RND Vx, nn (R170). -/
def execRnd (x : Reg) (nn : Byte) (s : State) : Host.Outcome State Fault Refusal := .next (s.takeRand.setV x (s.rand &&& nn))

/-- SKP Vx (R171). -/
def execSkp (x : Reg) (s : State) : Host.Outcome State Fault Refusal := .next (s.skipIf s.key[keySelect (s.reg x)])

/-- SKNP Vx (R172). -/
def execSknp (x : Reg) (s : State) : Host.Outcome State Fault Refusal := .next (s.skipIf (!s.key[keySelect (s.reg x)]))

/-- LD Vx, DT (R173). -/
def execLdVxDt (x : Reg) (s : State) : Host.Outcome State Fault Refusal := .next (s.setV x s.dt)

/-- The number of a key as the byte stored in a register (R174). -/
def keyByte (k : Fin 16) : Byte := BitVec.ofNat 8 k.val

/-- LD Vx, K (R174): the least pressed key, or back to P (PC holds P + 2 here) and wait. -/
def execLdVxK (x : Reg) (s : State) : Host.Outcome State Fault Refusal :=
  match s.leastKey with
  | some k => .next (s.setV x (keyByte k))
  | none => .next { s with pc := s.pc - 2, waitX := x, runState := .awaitingKey }

/-- A Step in AWAITING_KEY: completes the suspended LD_VX_K once a key is pressed, else changes nothing (R91, R174). -/
def State.pollKey (s : State) : State :=
  match s.leastKey with
  | some k => { (s.setV s.waitX (keyByte k)).advancePc with runState := .running }
  | none => s

/-- LD DT, Vx (R175). -/
def execLdDtVx (x : Reg) (s : State) : Host.Outcome State Fault Refusal := .next (s.setDt (s.reg x))

/-- LD ST, Vx (R176). -/
def execLdStVx (x : Reg) (s : State) : Host.Outcome State Fault Refusal := .next (s.setSt (s.reg x))

end Sys2Proof.Machine
end

