-- ==== Sys2Proof/Machine/Engine.lean ====
section
/-! DEFINITION. The Step transition (30_encoding R91): its checks in the order of R209, fetch, the unknown opcode, dispatch;
the result a Step reports to the host; and the placing of a word where the next fetch reads it. -/

namespace Sys2Proof.Machine

/-- What a Step returns to the host (R91). -/
inductive StepResult where
  | ok
  | waiting
  | unknownOpcode (addr w : Word)
  /-- The stored cause; `none` would be code 0, which no halted machine that a run reaches holds (R35 e). -/
  | fault (cause : Option Fault)
deriving DecidableEq, Repr

/-- The fetch bound of R201: both bytes of the instruction lie in memory. -/
def State.canFetch (s : State) : Bool := s.pc.toNat ≤ Config.maxFetchPc

/-- A Step in RUNNING. An unknown opcode advances PC and changes nothing else (R90, R206). -/
def runStep (s : State) : Host.Outcome State Fault Refusal :=
  if s.canFetch then
    match decode s.fetchWord with
    | .ok i => exec i s.advancePc
    | .error _ => .next s.advancePc
  else .next (s.raise .pcOutOfBounds)

/-- One Step (R91, R209). In HALTED it changes nothing (R208). -/
def stepOnce (s : State) : Host.Outcome State Fault Refusal :=
  match s.runState with
  | .halted => .next s
  | .awaitingKey => .next s.pollKey
  | .running => runStep s

/-- The result of a Step that ended in state `t` without meeting an unknown opcode (R91). -/
def resultOf (t : State) : StepResult :=
  match t.runState with
  | .running => .ok
  | .awaitingKey => .waiting
  | .halted => .fault t.faultCause

/-- The word a Step from `s` reports as unknown, if it fetches one (R206). -/
def unknownWord (s : State) : Option Word :=
  if s.runState = .running ∧ s.canFetch then
    match decode s.fetchWord with
    | .ok _ => none
    | .error _ => some s.fetchWord
  else none

/-- The result the Step from `s` returns. It is no state: "a result of that one Step", stored nowhere (R206, log 5). -/
def stepResult (s : State) : StepResult :=
  match unknownWord s with
  | some w => .unknownOpcode s.pc w
  | none =>
    match stepOnce s with
    | .next t => resultOf t
    | .fault c => .fault (some c)
    | .refused _ => .ok

/-- RUNNING, with a PC the fetch accepts: as `s` is, but for what would keep the next Step from fetching (log 7). -/
def State.readyToFetch (s : State) : State :=
  let s := if s.runState = .running then s else { s with runState := .running, faultCause := none }
  if s.canFetch then s else s.setPc (BitVec.ofNat 16 Config.loadOffset)

/-- The word numbered as spec/opcode_table.json numbers it, stored at PC. -/
def State.placeWord (s : State) (nbits w : Nat) : State :=
  let s := s.readyToFetch
  { s with mem := s.mem.writeBytes s.pc.toNat (tableBytes nbits w) }

end Sys2Proof.Machine
end

