-- ==== Sys2Proof/Machine/Step.lean ====
section
/-! DEFINITION. The step of the host's interface: the Step transition of 30_encoding R91 (Machine/Engine.lean). -/

namespace Sys2Proof.Machine

/-- One Step; its `rand` is the head of `randIn`, or a free byte (log 1). -/
def step (s : State) : Host.Outcome State Fault Refusal := stepOnce s

/-- `s` with an instruction stored where `step` fetches next. -/
def State.withFetchWord (s : State) (nbits w : Nat) : State := s.placeWord nbits w

end Sys2Proof.Machine
end

