-- ==== Sys2Proof/WellFormed.lean ====
section
/-! DEFINITION. What is legal to write down. The operand types already bound every field to the values R83 admits ("every
value is legal"), so no instruction is refused here; the arguments of the host's transitions are checked. -/

namespace Sys2Proof

/-- R83: `x`, `y` any of 16 registers, equal or not, VF included; `n`, `nn`, `nnn` any value of their width. -/
def Instr.wellFormed : Instr → Bool
  | .cls => true
  | .ret => true
  | .jp _ => true
  | .call _ => true
  | .seImm _ _ => true
  | .sneImm _ _ => true
  | .seReg _ _ => true
  | .sneReg _ _ => true
  | .ldImm _ _ => true
  | .addImm _ _ => true
  | .ldReg _ _ => true
  | .or _ _ => true
  | .and _ _ => true
  | .xor _ _ => true
  | .addReg _ _ => true
  | .sub _ _ => true
  | .shr _ _ => true
  | .subn _ _ => true
  | .shl _ _ => true
  | .ldI _ => true
  | .jpV0 _ => true
  | .rnd _ _ => true
  | .drw _ _ _ => true
  | .skp _ => true
  | .sknp _ => true
  | .ldVxDt _ => true
  | .ldVxK _ => true
  | .ldDtVx _ => true
  | .ldStVx _ => true
  | .addI _ => true
  | .ldF _ => true
  | .ldB _ => true
  | .stRegs _ => true
  | .ldRegs _ => true

/-- A program image Reset accepts: at most `ROM_MAX` bytes, the empty one included (R64, R220). -/
def romWellFormed (rom : List Byte) : Bool := rom.length ≤ Config.romMax

/-- A key number SetKey accepts: 0 to 15 (R214). -/
def keyWellFormed (k : Nat) : Bool := k < 16

end Sys2Proof
end

