-- ==== Sys2Proof/Machine/Transitions.lean ====
section
/-! DEFINITION. The four transitions through which alone the machine's state changes (00_scope R5): Reset(rom), Step(rand),
Tick and SetKey(k, b); and the outputs the host reads between them (10_state R33). -/

namespace Sys2Proof.Machine

/-- Memory after Reset: the session's glyph table at 0, the program at 0x200, zeros elsewhere (R230, R34). -/
def resetMemory (glyphs : Vector Byte 80) (rom : List Byte) : Memory :=
  (Memory.writeBytes [] 0 glyphs.toList).writeBytes Config.loadOffset rom

/-- `Reset(rom)` beginning a session with the given parameters (R230, R239): every piece of state at its reset value. The
bytes of the random input are the host's and no state: they stay (log 1). -/
def State.resetTo (s : State) (glyphs : Vector Byte 80) (src : ShiftSrc) (rom : List Byte) : State :=
  { State.reset with mem := resetMemory glyphs rom, shiftSrc := src, randIn := s.randIn, randIx := s.randIx }

/-- A timer counts down by one, not below 0 (R25, R212). -/
def countDown (b : Byte) : Byte := if b.toNat > 0 then b - 1 else b

/-- `Tick` (R212), the same in every run state. -/
def State.tick (s : State) : State := { s with dt := countDown s.dt, st := countDown s.st }

/-- `KEY[k] <- b` (R214), the same in every run state. -/
def State.setKey (s : State) (k : Fin 16) (b : Bool) : State := { s with key := s.key.set k b }

/-- `Step(rand)` (R91) for a given `rand`: the byte is offered to the Step and gone after it. -/
def stepWith (r : Byte) (s : State) : Host.Outcome State Fault Refusal :=
  match step { s with randIn := r :: s.randIn } with
  | .next t => .next { t with randIn := s.randIn }
  | .fault c => .fault c
  | .refused c => .refused c

/-- The transitions (R5). Reset carries the parameters of the session it begins (R239). -/
inductive Transition where
  | reset (glyphs : Vector Byte 80) (src : ShiftSrc) (rom : List Byte)
  | step (rand : Byte)
  | tick
  | setKey (k : Nat) (b : Bool)
deriving DecidableEq, Repr

/-- A transition applied. An oversized image (R220) and a key number above 15 (R214) are refused, the state as it was. -/
def apply (tr : Transition) (s : State) : Host.Outcome State Fault Refusal :=
  match tr with
  | .reset glyphs src rom => if romWellFormed rom then .next (s.resetTo glyphs src rom) else .refused .romTooLarge
  | .step rand => stepWith rand s
  | .tick => .next s.tick
  | .setKey k b => if keyWellFormed k then .next (s.setKey (Fin.ofNat 16 k) b) else .refused .keyOutOfRange

/-- A schedule of the host's: transitions one at a time, in its order (R5, R235), up to the first that is refused. -/
def applyAll : List Transition → State → Host.Outcome State Fault Refusal
  | [], s => .next s
  | tr :: trs, s =>
    match apply tr s with
    | .next t => applyAll trs t
    | .fault c => .fault c
    | .refused c => .refused c

/-! ### Outputs (R33) -/

/-- `sound_active`: any nonzero sound timer is a tone (R213). -/
def State.soundActive (s : State) : Bool := s.st.toNat ≠ 0

/-- What the host may read between transitions (R33). -/
structure Outputs where
  display : Display
  soundTimer : Byte
  soundActive : Bool
  runState : RunState
  faultCause : Option Fault
deriving DecidableEq, Repr

def State.outputs (s : State) : Outputs :=
  { display := s.disp, soundTimer := s.st, soundActive := s.soundActive, runState := s.runState, faultCause := s.faultCause }

end Sys2Proof.Machine
end

