-- ==== Sys2Proof/Safety.lean ====
section
/-! DEFINITION. What counts as a safe run, the invariant of reachable states (10_state R35, R31), and the words the
statements use for what an instruction leaves unchanged. -/

namespace Sys2Proof.Machine

/-! ### Safe runs -/

/-- No fatal fault has occurred (R29, R208). -/
def State.safe (s : State) : Prop := s.runState ≠ .halted

/-- The conventional end of a program, a jump to itself (R238, decision D28, log 21): RUNNING with `JP PC` at PC. -/
def State.idle (s : State) : Prop :=
  s.runState = .running ∧ ∃ nnn, decode s.fetchWord = .ok (.jp nnn) ∧ nnn.toNat = s.pc.toNat

/-! ### The invariant -/

/-- R35 (b). -/
def State.pcInRange (s : State) : Prop := s.pc.toNat ≤ 0x10FE

/-- R35 (c): every stack entry is 0 or the address after a CALL. -/
def State.stackInRange (s : State) : Prop := ∀ k : Fin 16, s.stack[k] = 0 ∨ (2 ≤ s.stack[k].toNat ∧ s.stack[k].toNat ≤ 4096)

/-- R35 (e): a cause is recorded exactly in HALTED. -/
def State.causeMatches (s : State) : Prop := s.faultCause ≠ none ↔ s.runState = .halted

/-- R31: while a key is awaited, PC addresses the suspended LD_VX_K and `WAIT_X` is its `x` field. -/
def State.waitMatches (s : State) : Prop :=
  s.runState = .awaitingKey → s.canFetch = true ∧ decode s.fetchWord = .ok (.ldVxK s.waitX)

/-- What Reset establishes and every transition keeps. SP is at most 16 by its type (R35 a). -/
def State.Inv (s : State) : Prop :=
  s.mem.wf = true ∧ s.pcInRange ∧ s.stackInRange ∧ s.causeMatches ∧ s.waitMatches

/-! ### Frames -/

/-- A piece of the state, the smallest unit an instruction can leave unchanged. -/
inductive Part where
  | v (x : Reg)
  | i
  | pc
  | sp
  | stack (k : Fin 16)
  | dt
  | st
  | disp (p : Fin 32 × Fin 64)
  | key (k : Fin 16)
  | mem (addr : Nat)
  | runState
  | faultCause
  | waitX
  | shiftSrc
  | randIn
  | randIx
deriving DecidableEq, Repr

/-- The piece is the same in both states; a byte of memory as `Memory.read` gives it. -/
def Part.same (p : Part) (s t : State) : Prop :=
  match p with
  | .v x => t.v[x] = s.v[x]
  | .i => t.i = s.i
  | .pc => t.pc = s.pc
  | .sp => t.sp = s.sp
  | .stack k => t.stack[k] = s.stack[k]
  | .dt => t.dt = s.dt
  | .st => t.st = s.st
  | .disp c => Display.cell t.disp c = Display.cell s.disp c
  | .key k => t.key[k] = s.key[k]
  | .mem a => t.mem.read a = s.mem.read a
  | .runState => t.runState = s.runState
  | .faultCause => t.faultCause = s.faultCause
  | .waitX => t.waitX = s.waitX
  | .shiftSrc => t.shiftSrc = s.shiftSrc
  | .randIn => t.randIn = s.randIn
  | .randIx => t.randIx = s.randIx

/-- `t` differs from `s` at most in the pieces allowed. -/
def State.onlyChanges (s t : State) (allowed : Part → Prop) : Prop := ∀ p : Part, ¬ allowed p → p.same s t

/-- `t` is `s` after fault entry with cause `c` (R207): HALTED, the cause recorded, every other piece as it was. -/
def State.faultsInto (s t : State) (c : Fault) : Prop :=
  t.runState = .halted ∧ t.faultCause = some c ∧ s.onlyChanges t fun p => p = .runState ∨ p = .faultCause

/-- A Step from `s` fetches the word `w`: RUNNING, both bytes in memory, the first byte the high one (R52, R91). -/
def State.fetches (s : State) (w : Word) : Prop :=
  s.runState = .running ∧ s.pc.toNat ≤ 4094 ∧
    w.toNat = (s.mem.read s.pc.toNat).toNat * 256 + (s.mem.read (s.pc.toNat + 1)).toNat

/-- Some 1 bit of the `n`-byte sprite at I, drawn at `(V[x], V[y])`, lands on the cell (R161). -/
def spriteLit (s : State) (x y : Reg) (n : BitVec 4) (c : Fin 32 × Fin 64) : Prop :=
  ∃ row, row < n.toNat ∧ ∃ col, col < 8 ∧ (s.mem.read (s.effAddr row)).getLsbD (7 - col) = true ∧
    c.1.val = (s.v[y].toNat + row) % 32 ∧ c.2.val = (s.v[x].toNat + col) % 64

/-- The byte at `a` once `bytes` have been stored at `addr`, `addr + 1`, ...: one of them, or what was there. -/
def State.byteAfterStore (s : State) (addr : Nat) (bytes : List Byte) (a : Nat) : Byte :=
  if addr ≤ a then bytes.getD (a - addr) (s.mem.read a) else s.mem.read a

/-- The column "raised by" of the taxonomy (60_exceptions R200): the instructions that can raise each fault. PcOutOfBounds is
the fetch's. -/
def raises (i : Instr) : Fault → Prop
  | .stackOverflow => ∃ nnn, i = .call nnn
  | .stackUnderflow => i = .ret
  | .pcOutOfBounds => False
  | .dataAddressOutOfBounds => (∃ x y n, i = .drw x y n) ∨ ∃ x, i = .ldB x ∨ i = .stRegs x ∨ i = .ldRegs x
  | .writeProtected => ∃ x, i = .ldB x ∨ i = .stRegs x

/-- A word that matches a row of the opcode map decodes to the row's instruction (R84). -/
def encodes (mask pattern : Word) (build : Word → Instr) : Prop :=
  ∀ w : Word, w &&& mask = pattern → decode w = .ok (build w)

/-- Instructions executed one after another, PC advanced before each as a Step does (R91); no fetch. -/
def execSeq : List Instr → State → Host.Outcome State Fault Refusal
  | [], s => .next s
  | i :: is, s =>
    match exec i s.advancePc with
    | .next t => execSeq is t
    | .fault c => .fault c
    | .refused c => .refused c

end Sys2Proof.Machine
end

