-- ==== Sys2Proof/Certificates/Slice0/Obligations.lean ====
section
/-! DEFINITION. The statements for the provers. In a statement about `exec`, PC already holds P + 2, the base advance
(30_encoding R91), so "PC unchanged" is "PC stays P + 2". "D<n>" is a decision of spec/92_eei_decisions.md, the spec's own
choice; "log <n>" is notes/assumptions/<n>.md. In an `encodes` clause the selector is that of R84; but for classes 6 and 7
and the word 0x0000 its number is the spec's decision D2 (log 9). -/

open Sys2Proof Sys2Proof.Machine

/-! ### Encoding -/

/-- Decoding the encoder's word, or its bytes followed by any others, gives the instruction back, with every operand at
every value (R80, R82 to R84). The selectors are the spec's decision D2 (log 9). -/
def Obligations.DecodeOfEncodeIsIdentity : Prop :=
  ∀ (i : Instr) (rest : List Byte), i.wellFormed = true →
    decode (encode i) = .ok i ∧ decodeBytes (encodeBytes i ++ rest) = .ok (i, rest)

/-- R84: a word selects the row for which `w & mask = match`, no word matches two rows, and a word that matches no row is
no instruction. The selectors and their strictness are the spec's decisions D2, D3, D4 (log 9). -/
def Obligations.DecodeFollowsOpcodeMap : Prop :=
  opcodeTable.length = 34 ∧ ∀ w : Word,
    (∀ row ∈ opcodeTable, w &&& row.mask = row.pattern →
      decode w = .ok (row.build w) ∧ (row.build w).mnemonic = row.mnemonic) ∧
    ((∀ row ∈ opcodeTable, w &&& row.mask ≠ row.pattern) → ∃ e, decode w = .error e) ∧
    (∀ r₁ ∈ opcodeTable, ∀ r₂ ∈ opcodeTable, w &&& r₁.mask = r₁.pattern → w &&& r₂.mask = r₂.pattern →
      r₁.mnemonic = r₂.mnemonic)

/-- No bit of a decoded word is dropped, but for bits 11:4 of CLS and RET, which the decoder ignores (R84, R85; D3, log 9). -/
def Obligations.DecodedWordReencodes : Prop :=
  ∀ (w : Word) (i : Instr), decode w = .ok i →
    (i = .cls ∧ w &&& 0xF00F = 0x0000) ∨ (i = .ret ∧ w &&& 0xF00F = 0x000E) ∨
    (i ≠ .cls ∧ i ≠ .ret ∧ encode i = w)

/-- Words of spec/95_test_vectors.md B1, one or more of every format, decode as listed there. -/
def Obligations.ListedWordsDecode : Prop :=
  decode 0x0000 = .ok .cls ∧ decode 0x00E0 = .ok .cls ∧ decode 0x0ABE = .ok .ret ∧ decode 0x1FFF = .ok (.jp 0xFFF) ∧
  decode 0x3A7F = .ok (.seImm 0xA 0x7F) ∧ decode 0x6005 = .ok (.ldImm 0 5) ∧ decode 0x7003 = .ok (.addImm 0 3) ∧
  decode 0x8AB5 = .ok (.sub 0xA 0xB) ∧ decode 0x8ABE = .ok (.shl 0xA 0xB) ∧ decode 0xD125 = .ok (.drw 1 2 5) ∧
  decode 0xE2A1 = .ok (.sknp 2) ∧ decode 0xF133 = .ok (.ldB 1) ∧
  decode 0x5121 = .error (.unknownClass5 1) ∧ decode 0x8128 = .error (.unknownClass8 8)

/-- The unknown space of R90, class by class (D3, D4, log 9). -/
def Obligations.UnknownSpaceIsExact : Prop :=
  ∀ w : Word, (∃ e, decode w = .error e) ↔
    (fieldClass w = 0x0 ∧ fieldN w ∉ [0x0, 0xE]) ∨
    (fieldClass w = 0x5 ∧ fieldN w ≠ 0x0) ∨
    (fieldClass w = 0x8 ∧ fieldN w ∈ [0x8, 0x9, 0xA, 0xB, 0xC, 0xD, 0xF]) ∨
    (fieldClass w = 0x9 ∧ fieldN w ≠ 0x0) ∨
    (fieldClass w = 0xE ∧ fieldNn w ∉ [0x9E, 0xA1]) ∨
    (fieldClass w = 0xF ∧ fieldNn w ∉ [0x07, 0x0A, 0x15, 0x18, 0x1E, 0x29, 0x33, 0x55, 0x65])

/-! ### The Step transition -/

/-- When the word at PC decodes to `i`, the Step is `exec i` with PC advanced by 2 and nothing else added (R91, R52). -/
def Obligations.StepRunsDecodedInstruction : Prop :=
  ∀ (s : State) (w : Word) (i : Instr), s.fetches w → decode w = .ok i →
    step s = exec i { s with pc := s.pc + 2 }

/-- An unknown opcode advances PC by 2, changes nothing else and is reported with its address (R90, R206; D4, D24). -/
def Obligations.UnknownOpcodeIsReported : Prop :=
  ∀ (s : State) (w : Word), s.fetches w → (∀ i, decode w ≠ .ok i) →
    ∃ t, step s = .next t ∧ t.pc = s.pc + 2 ∧ s.onlyChanges t (fun p => p = .pc) ∧
      stepResult s = .unknownOpcode s.pc w

/-- A fetch with PC above 4094 is the fault PcOutOfBounds; PC keeps its value (R201, R207; D6, D7, log 10). -/
def Obligations.FetchBeyondMemoryHalts : Prop :=
  ∀ s : State, s.runState = .running → 4094 < s.pc.toNat →
    ∃ t, step s = .next t ∧ s.faultsInto t .pcOutOfBounds ∧ stepResult s = .fault (some .pcOutOfBounds)

/-- In HALTED a Step changes nothing and returns the cause, and until the next Reset only DT, ST and KEY can change (R208,
R35 f; D7, log 10). That a Step there is a next state equal to the old one is the model's choice (log 4). -/
def Obligations.HaltedUntilReset : Prop :=
  ∀ s : State, s.runState = .halted →
    step s = .next s ∧ stepResult s = .fault s.faultCause ∧
    ∀ (tr : Transition) (t : State), (∀ g c rom, tr ≠ .reset g c rom) → apply tr s = .next t →
      s.onlyChanges t fun p => p = .dt ∨ p = .st ∨ ∃ k, p = .key k

/-- A Step in AWAITING_KEY stores the least pressed key and resumes, or changes nothing (R91, R174, R218; D12, log 11). -/
def Obligations.AwaitingStepPollsKeys : Prop :=
  ∀ s : State, s.runState = .awaitingKey →
    (∀ k : Fin 16, s.key[k] = true → (∀ j, j < k → s.key[j] = false) →
      ∃ t, step s = .next t ∧ t.v[s.waitX].toNat = k.val ∧ t.pc = s.pc + 2 ∧ t.runState = .running ∧
        s.onlyChanges t (fun p => p = .v s.waitX ∨ p = .pc ∨ p = .runState) ∧ stepResult s = .ok) ∧
    ((∀ k : Fin 16, s.key[k] = false) → step s = .next s ∧ stepResult s = .waiting)

/-- Every Step answers a next state, and its result says which run state that is (R91; the names are D7, D24; log 5). -/
def Obligations.StepResultTellsRunState : Prop :=
  ∀ s : State, ∃ t, step s = .next t ∧
    match stepResult s with
    | .ok => t.runState = .running
    | .waiting => t.runState = .awaitingKey
    | .unknownOpcode addr _ => t.runState = .running ∧ addr = s.pc ∧ t.pc = s.pc + 2
    | .fault c => t.runState = .halted ∧ t.faultCause = c

/-! ### Invariants -/

/-- The invariant of R35 and R31 holds at reset. -/
def Obligations.InvariantAtReset : Prop := State.reset.Inv

/-- Every Step keeps the invariant, from any state that meets it (R35, R31). -/
def Obligations.StepKeepsInvariant : Prop :=
  ∀ s t : State, s.Inv → step s = .next t → t.Inv

/-- Every schedule of the host's transitions keeps the invariant (R35, "after Reset and after every transition"). -/
def Obligations.ScheduleKeepsInvariant : Prop :=
  ∀ (trs : List Transition) (s t : State), s.Inv → applyAll trs s = .next t → t.Inv

/-- Below 0x200 memory never changes between Resets (R35 d; rests on D10, log 10). -/
def Obligations.LowMemoryIsImmutable : Prop :=
  ∀ (tr : Transition) (s t : State), (∀ g c rom, tr ≠ .reset g c rom) → apply tr s = .next t →
    ∀ a, a < 0x200 → t.mem.read a = s.mem.read a

/-- Memories in the canonical form that read alike are equal data: the model's representation (log 17). -/
def Obligations.CanonicalMemoriesAreEqual : Prop :=
  ∀ m n : Memory, m.wf = true → n.wf = true → (∀ a, m.read a = n.read a) → m = n

/-! ### Memory access -/

/-- R59: every location returns the last value written to it, or its reset value; a repeated write changes nothing further.
A read leaves the state as it is by its type. -/
def Obligations.LocationsHoldLastWrite : Prop :=
  (∀ (s t : State) (a : Nat) (v : Byte), s.memWrite a v = .ok t →
    t.memRead a = .ok v ∧ t.memWrite a v = .ok t ∧ ∀ b, b ≠ a → t.memRead b = s.memRead b) ∧
  ∀ (s : State) (g : Vector Byte 80) (c : ShiftSrc) (rom : List Byte) (a : Nat), rom.length ≤ 3584 → a ≤ 4095 →
    (s.resetTo g c rom).memRead a =
      .ok (if h : a < 80 then g[a] else if 0x200 ≤ a then rom.getD (a - 0x200) 0 else 0)

/-- MemRead and MemWrite: which addresses fault, and with which cause (R55, R56, R51; D9, D10, log 10). -/
def Obligations.MemoryPrimitivesCheckAddress : Prop :=
  ∀ (s : State) (a : Nat) (v : Byte),
    (a ≤ 4095 → s.memRead a = .ok (s.mem.read a)) ∧
    (4095 < a → s.memRead a = .error .dataAddressOutOfBounds ∧ s.memWrite a v = .error .dataAddressOutOfBounds) ∧
    (a < 0x200 → s.memWrite a v = .error .writeProtected) ∧
    (0x200 ≤ a → a ≤ 4095 → ∃ t, s.memWrite a v = .ok t ∧ t.mem.read a = v ∧ s.onlyChanges t fun p => p = .mem a)

/-- A store is seen by every later fetch (R62; D22, log 15): the word fetched anywhere after ST_REGS or LD_B has, high byte
first, the byte the instruction stored at each of its two addresses, or the byte that was there. -/
def Obligations.FetchSeesStores : Prop :=
  ∀ (s : State) (x : Reg) (p : Word), 0x200 ≤ s.effAddr 0 → p.toNat ≤ 4094 →
    (s.effAddr x.val ≤ 4095 →
      ∃ t, exec (.stRegs x) s = .next t ∧ (t.setPc p).fetchWord.toNat =
        (s.byteAfterStore (s.effAddr 0) (s.v.toList.take (x.val + 1)) p.toNat).toNat * 256 +
          (s.byteAfterStore (s.effAddr 0) (s.v.toList.take (x.val + 1)) (p.toNat + 1)).toNat) ∧
    ∀ hundreds tens units : Byte, hundreds.toNat = s.v[x].toNat / 100 → tens.toNat = s.v[x].toNat / 10 % 10 →
      units.toNat = s.v[x].toNat % 10 → s.effAddr 2 ≤ 4095 →
      ∃ t, exec (.ldB x) s = .next t ∧ (t.setPc p).fetchWord.toNat =
        (s.byteAfterStore (s.effAddr 0) [hundreds, tens, units] p.toNat).toNat * 256 +
          (s.byteAfterStore (s.effAddr 0) [hundreds, tens, units] (p.toNat + 1)).toNat

/-! ### Control transfer -/

/-- R101: JP nnn writes PC and nothing else; a jump to itself leaves the whole state as it was; 0xFFF is accepted and the
next Step faults. -/
def Obligations.JumpSetsPc : Prop :=
  encodes 0xF000 0x1000 (fun w => .jp (fieldNnn w)) ∧
  (∀ (nnn : BitVec 12) (s : State), ∃ t, exec (.jp nnn) s = .next t ∧ t.pc.toNat = nnn.toNat ∧
    s.onlyChanges t (fun p => p = .pc) ∧
    (nnn = 0xFFF → s.runState = .running → ∃ u, step t = .next u ∧ t.faultsInto u .pcOutOfBounds)) ∧
  ∀ (s : State) (w : Word) (nnn : BitVec 12), s.fetches w → decode w = .ok (.jp nnn) → nnn.toNat = s.pc.toNat →
    step s = .next s

/-- R102, R202: CALL pushes P + 2 and jumps; with SP = 16 it faults and pushes nothing; from an empty stack sixteen calls in
succession succeed; a RET right after it returns to P + 2. -/
def Obligations.CallPushesReturnAddress : Prop :=
  encodes 0xF000 0x2000 (fun w => .call (fieldNnn w)) ∧
  (∀ (nnn : BitVec 12) (s : State) (h : s.sp.val < 16), ∃ t, exec (.call nnn) s = .next t ∧
    t.stack[s.sp.val] = s.pc ∧ t.sp.val = s.sp.val + 1 ∧ t.pc.toNat = nnn.toNat ∧
    s.onlyChanges t (fun p => p = .stack ⟨s.sp.val, h⟩ ∨ p = .sp ∨ p = .pc) ∧
    ∃ u, exec .ret t.advancePc = .next u ∧ u.pc = s.pc ∧ u.sp = s.sp) ∧
  (∀ (nnn : BitVec 12) (s : State), s.sp.val = 16 →
    ∃ t, exec (.call nnn) s = .next t ∧ s.faultsInto t .stackOverflow) ∧
  ∀ (targets : List (BitVec 12)) (nnn : BitVec 12) (s : State), targets.length = 16 → s.sp.val = 0 →
    ∃ t u, execSeq (targets.map .call) s = .next t ∧ t.runState = s.runState ∧ t.sp.val = 16 ∧
      exec (.call nnn) t.advancePc = .next u ∧ t.advancePc.faultsInto u .stackOverflow

/-- R100, R203: RET pops into PC and leaves every slot as it was; with SP = 0 it faults; a popped 4096 faults at the next
fetch; after a CALL it returns to the instruction that follows. -/
def Obligations.ReturnPopsPc : Prop :=
  encodes 0xF00F 0x000E (fun _ => .ret) ∧
  (∀ (s : State) (_ : 0 < s.sp.val), ∃ t, exec .ret s = .next t ∧ t.pc = s.stack[s.sp.val - 1] ∧
    t.sp.val = s.sp.val - 1 ∧ s.onlyChanges t (fun p => p = .pc ∨ p = .sp) ∧
    (s.stack[s.sp.val - 1] = 4096 → s.runState = .running → ∃ u, step t = .next u ∧ t.faultsInto u .pcOutOfBounds)) ∧
  (∀ s : State, s.sp.val = 0 → ∃ t, exec .ret s = .next t ∧ s.faultsInto t .stackUnderflow) ∧
  ∀ (nnn : BitVec 12) (s t : State), s.sp.val < 16 → exec (.call nnn) s = .next t →
    ∃ u, exec .ret t.advancePc = .next u ∧ u.pc = s.pc

/-- R103, R104: the two skips on an immediate. -/
def Obligations.SkipOnImmediate : Prop :=
  encodes 0xF000 0x3000 (fun w => .seImm (fieldX w) (fieldNn w)) ∧
  encodes 0xF000 0x4000 (fun w => .sneImm (fieldX w) (fieldNn w)) ∧
  ∀ (x : Reg) (nn : Byte) (s : State),
    (∃ t, exec (.seImm x nn) s = .next t ∧ t.pc = (if s.v[x].toNat = nn.toNat then s.pc + 2 else s.pc) ∧
      s.onlyChanges t fun p => p = .pc) ∧
    (∃ t, exec (.sneImm x nn) s = .next t ∧ t.pc = (if s.v[x].toNat ≠ nn.toNat then s.pc + 2 else s.pc) ∧
      s.onlyChanges t fun p => p = .pc)

/-- R105, R106: the two skips on a pair of registers. -/
def Obligations.SkipOnRegisters : Prop :=
  encodes 0xF00F 0x5000 (fun w => .seReg (fieldX w) (fieldY w)) ∧
  encodes 0xF00F 0x9000 (fun w => .sneReg (fieldX w) (fieldY w)) ∧
  ∀ (x y : Reg) (s : State),
    (∃ t, exec (.seReg x y) s = .next t ∧ t.pc = (if s.v[x].toNat = s.v[y].toNat then s.pc + 2 else s.pc) ∧
      s.onlyChanges t fun p => p = .pc) ∧
    (∃ t, exec (.sneReg x y) s = .next t ∧ t.pc = (if s.v[x].toNat ≠ s.v[y].toNat then s.pc + 2 else s.pc) ∧
      s.onlyChanges t fun p => p = .pc)

/-- R107: JP_V0 jumps to the integer sum `nnn + V[0]`, not reduced; a sum above 4094 faults at the next fetch. -/
def Obligations.OffsetJumpAddsV0 : Prop :=
  encodes 0xF000 0xB000 (fun w => .jpV0 (fieldNnn w)) ∧
  ∀ (nnn : BitVec 12) (s : State), ∃ t, exec (.jpV0 nnn) s = .next t ∧ t.pc.toNat = nnn.toNat + s.v[0].toNat ∧
    s.onlyChanges t (fun p => p = .pc) ∧
    (4094 < nnn.toNat + s.v[0].toNat → s.runState = .running →
      ∃ u, step t = .next u ∧ t.faultsInto u .pcOutOfBounds)

/-! ### Register load, immediate add, the ALU group -/

/-- R120: LD_IMM. -/
def Obligations.LoadImmediateSetsRegister : Prop :=
  encodes 0xF000 0x6000 (fun w => .ldImm (fieldX w) (fieldNn w)) ∧ decode 0x6005 = .ok (.ldImm 0 5) ∧
  ∀ (x : Reg) (nn : Byte) (s : State), ∃ t, exec (.ldImm x nn) s = .next t ∧ t.v[x] = nn ∧
    s.onlyChanges t fun p => p = .v x

/-- R121: ADD_IMM wraps modulo 256 and writes no flag: VF changes only as the destination. -/
def Obligations.AddImmediateWraps : Prop :=
  encodes 0xF000 0x7000 (fun w => .addImm (fieldX w) (fieldNn w)) ∧ decode 0x7003 = .ok (.addImm 0 3) ∧
  ∀ (x : Reg) (nn : Byte) (s : State), ∃ t, exec (.addImm x nn) s = .next t ∧
    t.v[x].toNat = (s.v[x].toNat + nn.toNat) % 256 ∧ s.onlyChanges t fun p => p = .v x

/-- R123 to R126: LD_REG, OR, AND, XOR, bit by bit, with no flag write. -/
def Obligations.CopyAndLogicSetRegister : Prop :=
  encodes 0xF00F 0x8000 (fun w => .ldReg (fieldX w) (fieldY w)) ∧
  encodes 0xF00F 0x8001 (fun w => .or (fieldX w) (fieldY w)) ∧
  encodes 0xF00F 0x8002 (fun w => .and (fieldX w) (fieldY w)) ∧
  encodes 0xF00F 0x8003 (fun w => .xor (fieldX w) (fieldY w)) ∧
  ∀ (x y : Reg) (s : State),
    (∃ t, exec (.ldReg x y) s = .next t ∧ t.v[x] = s.v[y] ∧ s.onlyChanges t fun p => p = .v x) ∧
    (∃ t, exec (.or x y) s = .next t ∧
      (∀ k, k < 8 → t.v[x].getLsbD k = (s.v[x].getLsbD k || s.v[y].getLsbD k)) ∧ s.onlyChanges t fun p => p = .v x) ∧
    (∃ t, exec (.and x y) s = .next t ∧
      (∀ k, k < 8 → t.v[x].getLsbD k = (s.v[x].getLsbD k && s.v[y].getLsbD k)) ∧ s.onlyChanges t fun p => p = .v x) ∧
    (∃ t, exec (.xor x y) s = .next t ∧
      (∀ k, k < 8 → t.v[x].getLsbD k = (s.v[x].getLsbD k ^^ s.v[y].getLsbD k)) ∧ s.onlyChanges t fun p => p = .v x)

/-- R127: ADD_REG. The flag is 1 iff the sum exceeds 255, whatever `x` and `y` are; with `x = 0xF` it replaces the sum. -/
def Obligations.AddRegisterSetsCarry : Prop :=
  encodes 0xF00F 0x8004 (fun w => .addReg (fieldX w) (fieldY w)) ∧
  ∀ (x y : Reg) (s : State), ∃ t, exec (.addReg x y) s = .next t ∧
    (x ≠ VF → t.v[x].toNat = (s.v[x].toNat + s.v[y].toNat) % 256) ∧
    t.v[VF].toNat = (if s.v[x].toNat + s.v[y].toNat > 255 then 1 else 0) ∧
    s.onlyChanges t fun p => p = .v x ∨ p = .v VF

/-- R128: SUB. The flag is 1 iff no borrow occurred; with `x = 0xF` it replaces the difference. -/
def Obligations.SubtractSetsNotBorrow : Prop :=
  encodes 0xF00F 0x8005 (fun w => .sub (fieldX w) (fieldY w)) ∧
  ∀ (x y : Reg) (s : State), ∃ t, exec (.sub x y) s = .next t ∧
    (x ≠ VF → (t.v[x].toNat : Int) = ((s.v[x].toNat : Int) - s.v[y].toNat) % 256) ∧
    t.v[VF].toNat = (if s.v[x].toNat ≥ s.v[y].toNat then 1 else 0) ∧
    s.onlyChanges t fun p => p = .v x ∨ p = .v VF

/-- SUBN (R130; that it is SUB with the operands exchanged is the spec's decision D27, log 13). -/
def Obligations.ReverseSubtractSetsNotBorrow : Prop :=
  ∀ (x y : Reg) (s : State), ∃ t, exec (.subn x y) s = .next t ∧
    (x ≠ VF → (t.v[x].toNat : Int) = ((s.v[y].toNat : Int) - s.v[x].toNat) % 256) ∧
    t.v[VF].toNat = (if s.v[y].toNat ≥ s.v[x].toNat then 1 else 0) ∧
    s.onlyChanges t fun p => p = .v x ∨ p = .v VF

/-- SHR and SHL (R129, R131; the bit shifted out is D27, log 13) for either value of SHIFT_SRC (D16, log 2). -/
def Obligations.ShiftsSetShiftedOutBit : Prop :=
  ∀ (x y : Reg) (s : State) (b : Byte), b = (if s.shiftSrc = .x then s.v[x] else s.v[y]) →
    (∃ t, exec (.shr x y) s = .next t ∧ (x ≠ VF → t.v[x].toNat = b.toNat / 2) ∧ t.v[VF].toNat = b.toNat % 2 ∧
      s.onlyChanges t fun p => p = .v x ∨ p = .v VF) ∧
    (∃ t, exec (.shl x y) s = .next t ∧ (x ≠ VF → t.v[x].toNat = b.toNat * 2 % 256) ∧ t.v[VF].toNat = b.toNat / 128 ∧
      s.onlyChanges t fun p => p = .v x ∨ p = .v VF)

/-- R21: VF changes only by a flag-writing instruction, or as the destination an instruction names. -/
def Obligations.FlagIsWrittenOnlyByItsWriters : Prop :=
  ∀ (i : Instr) (s t : State), exec i s = .next t → t.v[VF] ≠ s.v[VF] →
    (∃ x y, i = .addReg x y ∨ i = .sub x y ∨ i = .subn x y ∨ i = .shr x y ∨ i = .shl x y ∨ ∃ n, i = .drw x y n) ∨
    (∃ nn, i = .ldImm VF nn ∨ i = .addImm VF nn ∨ i = .rnd VF nn) ∨
    (∃ y, i = .ldReg VF y ∨ i = .or VF y ∨ i = .and VF y ∨ i = .xor VF y) ∨
    i = .ldVxDt VF ∨ i = .ldVxK VF ∨ i = .ldRegs VF

/-! ### Index register and memory -/

/-- R140: LD_I. -/
def Obligations.SetIndexLoadsImmediate : Prop :=
  encodes 0xF000 0xA000 (fun w => .ldI (fieldNnn w)) ∧
  ∀ (nnn : BitVec 12) (s : State), ∃ t, exec (.ldI nnn) s = .next t ∧ t.i.toNat = nnn.toNat ∧
    s.onlyChanges t fun p => p = .i

/-- ADD_I wraps at 16 bits with no flag, and LD_F multiplies the whole register by 5 (R141, R142; D23, log 16). -/
def Obligations.IndexArithmetic : Prop :=
  ∀ (x : Reg) (s : State),
    (∃ t, exec (.addI x) s = .next t ∧ t.i.toNat = (s.i.toNat + s.v[x].toNat) % 65536 ∧
      s.onlyChanges t fun p => p = .i) ∧
    (∃ t, exec (.ldF x) s = .next t ∧ t.i.toNat = s.v[x].toNat * 5 ∧ s.onlyChanges t fun p => p = .i)

/-- LD_B stores hundreds, tens and units at I, I + 1, I + 2 and changes no other byte (R143; the bounds are D9, D10, log 10). -/
def Obligations.StoreBcdWritesDigits : Prop :=
  ∀ (x : Reg) (s : State), 0x200 ≤ s.effAddr 0 → s.effAddr 2 ≤ 4095 →
    ∃ t, exec (.ldB x) s = .next t ∧
      (t.mem.read (s.effAddr 0)).toNat = s.v[x].toNat / 100 ∧
      (t.mem.read (s.effAddr 1)).toNat = s.v[x].toNat / 10 % 10 ∧
      (t.mem.read (s.effAddr 2)).toNat = s.v[x].toNat % 10 ∧
      s.onlyChanges t fun p => p = .mem (s.effAddr 0) ∨ p = .mem (s.effAddr 1) ∨ p = .mem (s.effAddr 2)

/-- ST_REGS stores V0..Vx at I..I+x and changes no other byte, nor I (R144; the bounds are D9, D10, log 10). -/
def Obligations.StoreRegistersWritesBlock : Prop :=
  ∀ (x : Reg) (s : State), 0x200 ≤ s.effAddr 0 → s.effAddr x.val ≤ 4095 →
    ∃ t, exec (.stRegs x) s = .next t ∧
      (∀ k : Fin 16, k ≤ x → t.mem.read (s.effAddr k.val) = s.v[k]) ∧
      s.onlyChanges t fun p => ∃ k : Fin 16, k ≤ x ∧ p = .mem (s.effAddr k.val)

/-- A store with a byte below 0x200 is WriteProtected, one with a byte above 4095 is DataAddressOutOfBounds, and neither
writes anything (R204, R205, R58; D9, D10, log 10). -/
def Obligations.StoresOutsideProgramMemoryFault : Prop :=
  ∀ (x : Reg) (s : State),
    (s.effAddr 0 < 0x200 →
      (∃ t, exec (.ldB x) s = .next t ∧ s.faultsInto t .writeProtected) ∧
      (∃ t, exec (.stRegs x) s = .next t ∧ s.faultsInto t .writeProtected)) ∧
    (4095 < s.effAddr 2 → ∃ t, exec (.ldB x) s = .next t ∧ s.faultsInto t .dataAddressOutOfBounds) ∧
    (4095 < s.effAddr x.val → ∃ t, exec (.stRegs x) s = .next t ∧ s.faultsInto t .dataAddressOutOfBounds)

/-- LD_REGS loads V0..Vx from I..I+x, any address to 4095, and changes no other register, nor I (R145; D9, log 10). -/
def Obligations.LoadRegistersReadsBlock : Prop :=
  ∀ (x : Reg) (s : State), s.effAddr x.val ≤ 4095 →
    ∃ t, exec (.ldRegs x) s = .next t ∧
      (∀ k : Fin 16, k ≤ x → t.v[k] = s.mem.read (s.effAddr k.val)) ∧
      s.onlyChanges t fun p => ∃ k : Fin 16, k ≤ x ∧ p = .v k

/-- LD_REGS and DRW with a byte above 4095 fault with no partial effect; DRW of no rows cannot (R204, R58; D9, log 10). -/
def Obligations.LoadsBeyondMemoryFault : Prop :=
  ∀ (x y : Reg) (n : BitVec 4) (s : State),
    (4095 < s.effAddr x.val → ∃ t, exec (.ldRegs x) s = .next t ∧ s.faultsInto t .dataAddressOutOfBounds) ∧
    (n ≠ 0 → 4095 < s.effAddr (n.toNat - 1) →
      ∃ t, exec (.drw x y n) s = .next t ∧ s.faultsInto t .dataAddressOutOfBounds) ∧
    (∃ t, exec (.drw x y 0) s = .next t ∧ t.v[VF] = 0 ∧ s.onlyChanges t fun p => p = .v VF)

/-! ### Display -/

/-- R160: CLS clears every cell and nothing else; a Step that fetches two zero bytes executes it, and memory that was never
written, below the image and past it, holds such bytes. -/
def Obligations.ClearScreenClearsAll : Prop :=
  encodes 0xF00F 0x0000 (fun _ => .cls) ∧
  (∀ s : State, ∃ t, exec .cls s = .next t ∧ (∀ c, Display.cell t.disp c = false) ∧
    s.onlyChanges t fun p => ∃ c, p = .disp c) ∧
  (∀ s : State, s.fetches 0x0000 → ∃ t, step s = .next t ∧ t.pc = s.pc + 2 ∧ (∀ c, Display.cell t.disp c = false) ∧
    s.onlyChanges t fun p => p = .pc ∨ ∃ c, p = .disp c) ∧
  ∀ (s : State) (g : Vector Byte 80) (c : ShiftSrc) (rom : List Byte) (p : Word), rom.length ≤ 3584 →
    (0x050 ≤ p.toNat ∧ p.toNat ≤ 0x1FE) ∨ (0x200 + rom.length ≤ p.toNat ∧ p.toNat ≤ 4094) →
    ((s.resetTo g c rom).setPc p).fetches 0x0000

/-- DRW toggles exactly the cells a 1 bit of the sprite lands on, wrapping, and VF is 1 iff one of them was set (R161; bit
order D14, operand order D18, bounds D9; logs 10, 12, 14). -/
def Obligations.DrawTogglesSpriteCells : Prop :=
  ∀ (x y : Reg) (n : BitVec 4) (s : State), (n = 0 ∨ s.effAddr (n.toNat - 1) ≤ 4095) →
    ∃ t, exec (.drw x y n) s = .next t ∧
      (∀ c, spriteLit s x y n c → Display.cell t.disp c = !Display.cell s.disp c) ∧
      (∀ c, ¬ spriteLit s x y n c → Display.cell t.disp c = Display.cell s.disp c) ∧
      ((∃ c, spriteLit s x y n c ∧ Display.cell s.disp c = true) → t.v[VF] = 1) ∧
      ((¬ ∃ c, spriteLit s x y n c ∧ Display.cell s.disp c = true) → t.v[VF] = 0) ∧
      s.onlyChanges t fun p => p = .v VF ∨ ∃ c, p = .disp c

/-- R162 (a), (b): a draw repeated restores the display, and its flag tells whether the first turned a cell on. -/
def Obligations.DrawTwiceRestoresDisplay : Prop :=
  ∀ (x y : Reg) (n : BitVec 4) (s : State), x ≠ VF → y ≠ VF → (n = 0 ∨ s.effAddr (n.toNat - 1) ≤ 4095) →
    ∃ t u, exec (.drw x y n) s = .next t ∧ exec (.drw x y n) t = .next u ∧ u.disp = s.disp ∧
      (u.v[VF] = 1 ↔ ∃ c, Display.cell s.disp c = false ∧ Display.cell t.disp c = true)

/-- R162 (d): a draw changes as many cells as the sprite has 1 bits. -/
def Obligations.DrawChangesAsManyCellsAsBits : Prop :=
  ∀ (x y : Reg) (n : BitVec 4) (s : State), (n = 0 ∨ s.effAddr (n.toNat - 1) ≤ 4095) →
    ∃ t, exec (.drw x y n) s = .next t ∧
      (Finset.univ.filter fun c : Fin 32 × Fin 64 => Display.cell t.disp c ≠ Display.cell s.disp c).card =
        ((List.range n.toNat).map fun row =>
          (List.range 8).countP fun col => (s.mem.read (s.effAddr row)).getLsbD col).sum

/-! ### Random, keypad, timers -/

/-- RND ands the random byte with `nn` (R170; D13). The byte is the head of `randIn`, which is used up, or, when the host has
supplied none, free byte number `randIx`, which moves on: the model's choice (log 1). So a Step given `rand` reads that
`rand`, which is gone after it. -/
def Obligations.RandomAndMasksRand : Prop :=
  ∀ (x : Reg) (nn : Byte) (s : State),
    (∀ (b : Byte) (bs : List Byte), s.randIn = b :: bs →
      ∃ t, exec (.rnd x nn) s = .next t ∧ (∀ k, k < 8 → t.v[x].getLsbD k = (b.getLsbD k && nn.getLsbD k)) ∧
        t.randIn = bs ∧ s.onlyChanges t fun p => p = .v x ∨ p = .randIn) ∧
    (s.randIn = [] →
      ∃ t, exec (.rnd x nn) s = .next t ∧
        (∀ k, k < 8 → t.v[x].getLsbD k = ((Config.randByte s.randIx).getLsbD k && nn.getLsbD k)) ∧
        t.randIx = s.randIx + 1 ∧ s.onlyChanges t fun p => p = .v x ∨ p = .randIx) ∧
    ∀ (w : Word) (rand : Byte), s.fetches w → decode w = .ok (.rnd x nn) →
      ∃ t, stepWith rand s = .next t ∧ (∀ k, k < 8 → t.v[x].getLsbD k = (rand.getLsbD k && nn.getLsbD k)) ∧
        t.pc = s.pc + 2 ∧ s.onlyChanges t fun p => p = .v x ∨ p = .pc

/-- Only RND reads the random input (R216): whatever has been supplied, any other instruction does the same and leaves it. -/
def Obligations.OnlyRandomReadsRand : Prop :=
  ∀ (i : Instr) (s : State) (bytes : List Byte) (n : Nat), (∀ x nn, i ≠ .rnd x nn) →
    ∃ t, exec i s = .next t ∧ t.randIn = s.randIn ∧ t.randIx = s.randIx ∧
      exec i { s with randIn := bytes, randIx := n } = .next { t with randIn := bytes, randIx := n }

/-- SKP and SKNP test the cell the low 4 bits of `V[x]` select (R171, R172; D11, log 11). -/
def Obligations.KeySkipsTestSelectedCell : Prop :=
  ∀ (x : Reg) (s : State) (k : Fin 16), k.val = s.v[x].toNat % 16 →
    (∃ t, exec (.skp x) s = .next t ∧ t.pc = (if s.key[k] = true then s.pc + 2 else s.pc) ∧
      s.onlyChanges t fun p => p = .pc) ∧
    (∃ t, exec (.sknp x) s = .next t ∧ t.pc = (if s.key[k] = false then s.pc + 2 else s.pc) ∧
      s.onlyChanges t fun p => p = .pc)

/-- R173: LD_VX_DT. -/
def Obligations.ReadDelayTimerLoadsRegister : Prop :=
  encodes 0xF0FF 0xF007 (fun w => .ldVxDt (fieldX w)) ∧
  ∀ (x : Reg) (s : State), ∃ t, exec (.ldVxDt x) s = .next t ∧ t.v[x] = s.dt ∧ s.onlyChanges t fun p => p = .v x

/-- R175, R176: LD_DT_VX and LD_ST_VX; the timer then counts down by one per Tick to 0, and a tone is active from the Step
on until ST reaches 0. -/
def Obligations.TimerWritesThenCountDown : Prop :=
  encodes 0xF0FF 0xF015 (fun w => .ldDtVx (fieldX w)) ∧
  encodes 0xF0FF 0xF018 (fun w => .ldStVx (fieldX w)) ∧
  ∀ (x : Reg) (s : State),
    (∃ t, exec (.ldDtVx x) s = .next t ∧ t.dt = s.v[x] ∧ s.onlyChanges t (fun p => p = .dt) ∧
      ∀ n : Nat, (State.tick^[n] t).dt.toNat = s.v[x].toNat - n) ∧
    (∃ t, exec (.ldStVx x) s = .next t ∧ t.st = s.v[x] ∧ s.onlyChanges t (fun p => p = .st) ∧
      ∀ n : Nat, (State.tick^[n] t).soundActive = decide (n < s.v[x].toNat))

/-- LD_VX_K stores the least pressed key at once, or goes back to P, latches `x` and waits (R174; D12, log 11). -/
def Obligations.WaitForKeyStoresOrSuspends : Prop :=
  ∀ (x : Reg) (s : State),
    (∀ k : Fin 16, s.key[k] = true → (∀ j, j < k → s.key[j] = false) →
      ∃ t, exec (.ldVxK x) s = .next t ∧ t.v[x].toNat = k.val ∧ s.onlyChanges t fun p => p = .v x) ∧
    ((∀ k : Fin 16, s.key[k] = false) →
      ∃ t, exec (.ldVxK x) s = .next t ∧ t.pc + 2 = s.pc ∧ t.waitX = x ∧ t.runState = .awaitingKey ∧
        s.onlyChanges t fun p => p = .pc ∨ p = .waitX ∨ p = .runState)

/-! ### The host's transitions and outputs -/

/-- Tick: each timer down by one, floor 0, in every run state, and nothing else (R212; every run state is D20, log 18). -/
def Obligations.TickDecrementsTimers : Prop :=
  ∀ s : State, ∃ t, apply .tick s = .next t ∧ t.dt.toNat = s.dt.toNat - 1 ∧ t.st.toNat = s.st.toNat - 1 ∧
    s.onlyChanges t fun p => p = .dt ∨ p = .st

/-- SetKey writes one cell and nothing else; a cell set to the value it has changes nothing (R214). That `k` above 15, no
legal argument, is refused is the treatment of 93_implementation_defined S15 (log 20). -/
def Obligations.SetKeyWritesOneCell : Prop :=
  ∀ (s : State) (b : Bool),
    (∀ k : Fin 16, ∃ t, apply (.setKey k.val b) s = .next t ∧ t.key[k] = b ∧ s.onlyChanges t (fun p => p = .key k) ∧
      (s.key[k] = b → t = s)) ∧
    ∀ k : Nat, 15 < k → apply (.setKey k b) s = .refused .keyOutOfRange

/-- R213: the tone is active iff ST is nonzero, a function of ST alone, and changes only by LD_ST_VX, Tick or Reset. -/
def Obligations.SoundFollowsSoundTimer : Prop :=
  (∀ s : State, s.outputs.soundActive = true ↔ s.st ≠ 0) ∧
  (∀ s t : State, s.st = t.st → s.outputs.soundActive = t.outputs.soundActive) ∧
  ∀ (tr : Transition) (s t : State), apply tr s = .next t → t.outputs.soundActive ≠ s.outputs.soundActive →
    tr = .tick ∨ (∃ g c rom, tr = .reset g c rom) ∨
    ∃ rand w x, tr = .step rand ∧ s.fetches w ∧ decode w = .ok (.ldStVx x)

/-- Reset puts every piece of state at its value of R34, from any state, with the session's parameters (R230; D1, and D17 for
DISP, KEY, RUN_STATE, FAULT_CAUSE and WAIT_X, log 8). -/
def Obligations.ResetSetsEveryPiece : Prop :=
  ∀ (s : State) (g : Vector Byte 80) (c : ShiftSrc) (rom : List Byte), rom.length ≤ 3584 →
    ∃ t, apply (.reset g c rom) s = .next t ∧
      (∀ x : Reg, t.v[x] = 0) ∧ t.i = 0 ∧ t.pc = 0x200 ∧ t.sp = 0 ∧ (∀ k : Fin 16, t.stack[k] = 0) ∧ t.dt = 0 ∧ t.st = 0 ∧
      (∀ p, Display.cell t.disp p = false) ∧ (∀ k : Fin 16, t.key[k] = false) ∧ t.runState = .running ∧
      t.faultCause = none ∧ t.waitX = 0 ∧ t.shiftSrc = c ∧
      (∀ a (h : a < 80), t.mem.read a = g[a]) ∧ (∀ a, 80 ≤ a → a < 0x200 → t.mem.read a = 0) ∧
      (∀ k (h : k < rom.length), t.mem.read (0x200 + k) = rom[k]) ∧
      (∀ a, 0x200 + rom.length ≤ a → a ≤ 4095 → t.mem.read a = 0)

/-- R64: the image is placed verbatim from 0x200 and PC set there, an empty one too; a longer one is refused whole; Tick
and SetKey, the host's other transitions, leave memory alone. -/
def Obligations.ProgramImageIsPlaced : Prop :=
  (∀ (s : State) (g : Vector Byte 80) (c : ShiftSrc) (rom : List Byte), rom.length ≤ 3584 →
    ∃ t, apply (.reset g c rom) s = .next t ∧ t.pc = 0x200 ∧
      ∀ k (h : k < rom.length), t.mem.read (0x200 + k) = rom[k]) ∧
  (∀ (s : State) (g : Vector Byte 80) (c : ShiftSrc) (rom : List Byte), 3584 < rom.length →
    apply (.reset g c rom) s = .refused .romTooLarge) ∧
  ∀ (s t : State) (k : Nat) (b : Bool), apply .tick s = .next t ∨ apply (.setKey k b) s = .next t → t.mem = s.mem

/-- R231: Reset leaves the machine in RUNNING with PC at 0x200, and the first Step runs the instruction the first two bytes
of the image (or the zeros after a shorter one) encode, with nothing before it. -/
def Obligations.ExecutionBeginsAtLoadOffset : Prop :=
  ∀ (s : State) (g : Vector Byte 80) (c : ShiftSrc) (rom : List Byte), rom.length ≤ 3584 →
    ∃ t, apply (.reset g c rom) s = .next t ∧ t.runState = .running ∧ t.pc = 0x200 ∧
      ∀ w : Word, w.toNat = (rom.getD 0 0).toNat * 256 + (rom.getD 1 0).toNat →
        (∀ i, decode w = .ok i → step t = exec i { t with pc := 0x202 }) ∧
        ((∀ i, decode w ≠ .ok i) → step t = .next { t with pc := 0x202 })

/-! ### Whole-machine rules -/

/-- Which instructions can change which state: V (R20, R21), I (R22), PC (R23), the stack (R24), the timers (R25), the display
(R26), memory (R54), RUN_STATE (R29), FAULT_CAUSE (R30), WAIT_X (R31); no instruction changes the keypad (R27) or SHIFT_SRC
(R32). What raises which fault is R200, with the decisions D9, D10 (log 10); that only RND uses up the fields of the random
input is the model's (log 1). -/
def Obligations.OnlyItsWritersChangeState : Prop :=
  ∀ (i : Instr) (s t : State), exec i s = .next t →
    (∀ k : Reg, t.v[k] ≠ s.v[k] →
      (∃ nn, i = .ldImm k nn ∨ i = .addImm k nn ∨ i = .rnd k nn) ∨
      (∃ y, i = .ldReg k y ∨ i = .or k y ∨ i = .and k y ∨ i = .xor k y ∨ i = .addReg k y ∨ i = .sub k y ∨
        i = .shr k y ∨ i = .subn k y ∨ i = .shl k y) ∨
      i = .ldVxDt k ∨ i = .ldVxK k ∨ (∃ x, k ≤ x ∧ i = .ldRegs x) ∨
      (k = VF ∧ ∃ x y, i = .addReg x y ∨ i = .sub x y ∨ i = .shr x y ∨ i = .subn x y ∨ i = .shl x y ∨
        ∃ n, i = .drw x y n)) ∧
    (t.i ≠ s.i → (∃ nnn, i = .ldI nnn) ∨ ∃ x, i = .addI x ∨ i = .ldF x) ∧
    (t.pc ≠ s.pc → i = .ret ∨ (∃ nnn, i = .jp nnn ∨ i = .call nnn ∨ i = .jpV0 nnn) ∨
      (∃ x nn, i = .seImm x nn ∨ i = .sneImm x nn) ∨ (∃ x y, i = .seReg x y ∨ i = .sneReg x y) ∨
      ∃ x, i = .skp x ∨ i = .sknp x ∨ i = .ldVxK x) ∧
    (t.stack ≠ s.stack → ∃ nnn, i = .call nnn) ∧
    (t.sp ≠ s.sp → i = .ret ∨ ∃ nnn, i = .call nnn) ∧
    (t.dt ≠ s.dt → ∃ x, i = .ldDtVx x) ∧
    (t.st ≠ s.st → ∃ x, i = .ldStVx x) ∧
    (t.disp ≠ s.disp → i = .cls ∨ ∃ x y n, i = .drw x y n) ∧
    (t.mem ≠ s.mem → ∃ x, i = .ldB x ∨ i = .stRegs x) ∧
    (t.runState ≠ s.runState →
      (∃ c, raises i c ∧ s.faultsInto t c) ∨ ∃ x, i = .ldVxK x ∧ t.runState = .awaitingKey) ∧
    (t.faultCause ≠ s.faultCause → ∃ c, raises i c ∧ s.faultsInto t c) ∧
    (t.waitX ≠ s.waitX → ∃ x, i = .ldVxK x) ∧
    (t.randIn ≠ s.randIn ∨ t.randIx ≠ s.randIx → ∃ x nn, i = .rnd x nn) ∧
    t.key = s.key ∧ t.shiftSrc = s.shiftSrc

/-- No instruction reads ST (R25): with another value in it, every instruction does the same to everything else. -/
def Obligations.NoInstructionReadsSoundTimer : Prop :=
  ∀ (i : Instr) (s : State) (b : Byte), ∃ t u, exec i s = .next t ∧ exec i { s with st := b } = .next u ∧
    (∀ p : Part, p ≠ .st → p.same t u) ∧ (u.st = t.st ∨ (t.st = s.st ∧ u.st = b))
end

