-- ==== Sys2Proof/Laws/State.lean ====
section
/-! SUPPORT. One lemma per field per update of State, so that no proof unfolds a record update. -/

namespace Sys2Proof.Machine

variable (s : State)

theorem State.setV_v (x : Reg) (b : Byte) : (s.setV x b).v = s.v.set x b := rfl
@[simp] theorem State.setV_i (x : Reg) (b : Byte) : (s.setV x b).i = s.i := rfl
@[simp] theorem State.setV_pc (x : Reg) (b : Byte) : (s.setV x b).pc = s.pc := rfl
@[simp] theorem State.setV_sp (x : Reg) (b : Byte) : (s.setV x b).sp = s.sp := rfl
@[simp] theorem State.setV_stack (x : Reg) (b : Byte) : (s.setV x b).stack = s.stack := rfl
@[simp] theorem State.setV_dt (x : Reg) (b : Byte) : (s.setV x b).dt = s.dt := rfl
@[simp] theorem State.setV_st (x : Reg) (b : Byte) : (s.setV x b).st = s.st := rfl
@[simp] theorem State.setV_disp (x : Reg) (b : Byte) : (s.setV x b).disp = s.disp := rfl
@[simp] theorem State.setV_key (x : Reg) (b : Byte) : (s.setV x b).key = s.key := rfl
@[simp] theorem State.setV_mem (x : Reg) (b : Byte) : (s.setV x b).mem = s.mem := rfl
@[simp] theorem State.setV_runState (x : Reg) (b : Byte) : (s.setV x b).runState = s.runState := rfl
@[simp] theorem State.setV_faultCause (x : Reg) (b : Byte) : (s.setV x b).faultCause = s.faultCause := rfl
@[simp] theorem State.setV_waitX (x : Reg) (b : Byte) : (s.setV x b).waitX = s.waitX := rfl
@[simp] theorem State.setV_shiftSrc (x : Reg) (b : Byte) : (s.setV x b).shiftSrc = s.shiftSrc := rfl
@[simp] theorem State.setV_randIn (x : Reg) (b : Byte) : (s.setV x b).randIn = s.randIn := rfl
@[simp] theorem State.setV_randIx (x : Reg) (b : Byte) : (s.setV x b).randIx = s.randIx := rfl

@[simp] theorem State.setI_v (w : Word) : (s.setI w).v = s.v := rfl
@[simp] theorem State.setI_i (w : Word) : (s.setI w).i = w := rfl
@[simp] theorem State.setI_pc (w : Word) : (s.setI w).pc = s.pc := rfl
@[simp] theorem State.setI_sp (w : Word) : (s.setI w).sp = s.sp := rfl
@[simp] theorem State.setI_stack (w : Word) : (s.setI w).stack = s.stack := rfl
@[simp] theorem State.setI_dt (w : Word) : (s.setI w).dt = s.dt := rfl
@[simp] theorem State.setI_st (w : Word) : (s.setI w).st = s.st := rfl
@[simp] theorem State.setI_disp (w : Word) : (s.setI w).disp = s.disp := rfl
@[simp] theorem State.setI_key (w : Word) : (s.setI w).key = s.key := rfl
@[simp] theorem State.setI_mem (w : Word) : (s.setI w).mem = s.mem := rfl
@[simp] theorem State.setI_runState (w : Word) : (s.setI w).runState = s.runState := rfl
@[simp] theorem State.setI_faultCause (w : Word) : (s.setI w).faultCause = s.faultCause := rfl
@[simp] theorem State.setI_waitX (w : Word) : (s.setI w).waitX = s.waitX := rfl
@[simp] theorem State.setI_shiftSrc (w : Word) : (s.setI w).shiftSrc = s.shiftSrc := rfl
@[simp] theorem State.setI_randIn (w : Word) : (s.setI w).randIn = s.randIn := rfl
@[simp] theorem State.setI_randIx (w : Word) : (s.setI w).randIx = s.randIx := rfl

@[simp] theorem State.setPc_v (w : Word) : (s.setPc w).v = s.v := rfl
@[simp] theorem State.setPc_i (w : Word) : (s.setPc w).i = s.i := rfl
@[simp] theorem State.setPc_pc (w : Word) : (s.setPc w).pc = w := rfl
@[simp] theorem State.setPc_sp (w : Word) : (s.setPc w).sp = s.sp := rfl
@[simp] theorem State.setPc_stack (w : Word) : (s.setPc w).stack = s.stack := rfl
@[simp] theorem State.setPc_dt (w : Word) : (s.setPc w).dt = s.dt := rfl
@[simp] theorem State.setPc_st (w : Word) : (s.setPc w).st = s.st := rfl
@[simp] theorem State.setPc_disp (w : Word) : (s.setPc w).disp = s.disp := rfl
@[simp] theorem State.setPc_key (w : Word) : (s.setPc w).key = s.key := rfl
@[simp] theorem State.setPc_mem (w : Word) : (s.setPc w).mem = s.mem := rfl
@[simp] theorem State.setPc_runState (w : Word) : (s.setPc w).runState = s.runState := rfl
@[simp] theorem State.setPc_faultCause (w : Word) : (s.setPc w).faultCause = s.faultCause := rfl
@[simp] theorem State.setPc_waitX (w : Word) : (s.setPc w).waitX = s.waitX := rfl
@[simp] theorem State.setPc_shiftSrc (w : Word) : (s.setPc w).shiftSrc = s.shiftSrc := rfl
@[simp] theorem State.setPc_randIn (w : Word) : (s.setPc w).randIn = s.randIn := rfl
@[simp] theorem State.setPc_randIx (w : Word) : (s.setPc w).randIx = s.randIx := rfl

@[simp] theorem State.advancePc_v : (s.advancePc).v = s.v := rfl
@[simp] theorem State.advancePc_i : (s.advancePc).i = s.i := rfl
@[simp] theorem State.advancePc_pc : (s.advancePc).pc = s.pc + 2 := rfl
@[simp] theorem State.advancePc_sp : (s.advancePc).sp = s.sp := rfl
@[simp] theorem State.advancePc_stack : (s.advancePc).stack = s.stack := rfl
@[simp] theorem State.advancePc_dt : (s.advancePc).dt = s.dt := rfl
@[simp] theorem State.advancePc_st : (s.advancePc).st = s.st := rfl
@[simp] theorem State.advancePc_disp : (s.advancePc).disp = s.disp := rfl
@[simp] theorem State.advancePc_key : (s.advancePc).key = s.key := rfl
@[simp] theorem State.advancePc_mem : (s.advancePc).mem = s.mem := rfl
@[simp] theorem State.advancePc_runState : (s.advancePc).runState = s.runState := rfl
@[simp] theorem State.advancePc_faultCause : (s.advancePc).faultCause = s.faultCause := rfl
@[simp] theorem State.advancePc_waitX : (s.advancePc).waitX = s.waitX := rfl
@[simp] theorem State.advancePc_shiftSrc : (s.advancePc).shiftSrc = s.shiftSrc := rfl
@[simp] theorem State.advancePc_randIn : (s.advancePc).randIn = s.randIn := rfl
@[simp] theorem State.advancePc_randIx : (s.advancePc).randIx = s.randIx := rfl

@[simp] theorem State.setDt_v (b : Byte) : (s.setDt b).v = s.v := rfl
@[simp] theorem State.setDt_i (b : Byte) : (s.setDt b).i = s.i := rfl
@[simp] theorem State.setDt_pc (b : Byte) : (s.setDt b).pc = s.pc := rfl
@[simp] theorem State.setDt_sp (b : Byte) : (s.setDt b).sp = s.sp := rfl
@[simp] theorem State.setDt_stack (b : Byte) : (s.setDt b).stack = s.stack := rfl
@[simp] theorem State.setDt_dt (b : Byte) : (s.setDt b).dt = b := rfl
@[simp] theorem State.setDt_st (b : Byte) : (s.setDt b).st = s.st := rfl
@[simp] theorem State.setDt_disp (b : Byte) : (s.setDt b).disp = s.disp := rfl
@[simp] theorem State.setDt_key (b : Byte) : (s.setDt b).key = s.key := rfl
@[simp] theorem State.setDt_mem (b : Byte) : (s.setDt b).mem = s.mem := rfl
@[simp] theorem State.setDt_runState (b : Byte) : (s.setDt b).runState = s.runState := rfl
@[simp] theorem State.setDt_faultCause (b : Byte) : (s.setDt b).faultCause = s.faultCause := rfl
@[simp] theorem State.setDt_waitX (b : Byte) : (s.setDt b).waitX = s.waitX := rfl
@[simp] theorem State.setDt_shiftSrc (b : Byte) : (s.setDt b).shiftSrc = s.shiftSrc := rfl
@[simp] theorem State.setDt_randIn (b : Byte) : (s.setDt b).randIn = s.randIn := rfl
@[simp] theorem State.setDt_randIx (b : Byte) : (s.setDt b).randIx = s.randIx := rfl

@[simp] theorem State.setSt_v (b : Byte) : (s.setSt b).v = s.v := rfl
@[simp] theorem State.setSt_i (b : Byte) : (s.setSt b).i = s.i := rfl
@[simp] theorem State.setSt_pc (b : Byte) : (s.setSt b).pc = s.pc := rfl
@[simp] theorem State.setSt_sp (b : Byte) : (s.setSt b).sp = s.sp := rfl
@[simp] theorem State.setSt_stack (b : Byte) : (s.setSt b).stack = s.stack := rfl
@[simp] theorem State.setSt_dt (b : Byte) : (s.setSt b).dt = s.dt := rfl
@[simp] theorem State.setSt_st (b : Byte) : (s.setSt b).st = b := rfl
@[simp] theorem State.setSt_disp (b : Byte) : (s.setSt b).disp = s.disp := rfl
@[simp] theorem State.setSt_key (b : Byte) : (s.setSt b).key = s.key := rfl
@[simp] theorem State.setSt_mem (b : Byte) : (s.setSt b).mem = s.mem := rfl
@[simp] theorem State.setSt_runState (b : Byte) : (s.setSt b).runState = s.runState := rfl
@[simp] theorem State.setSt_faultCause (b : Byte) : (s.setSt b).faultCause = s.faultCause := rfl
@[simp] theorem State.setSt_waitX (b : Byte) : (s.setSt b).waitX = s.waitX := rfl
@[simp] theorem State.setSt_shiftSrc (b : Byte) : (s.setSt b).shiftSrc = s.shiftSrc := rfl
@[simp] theorem State.setSt_randIn (b : Byte) : (s.setSt b).randIn = s.randIn := rfl
@[simp] theorem State.setSt_randIx (b : Byte) : (s.setSt b).randIx = s.randIx := rfl

@[simp] theorem State.setDisp_v (d : Display) : (s.setDisp d).v = s.v := rfl
@[simp] theorem State.setDisp_i (d : Display) : (s.setDisp d).i = s.i := rfl
@[simp] theorem State.setDisp_pc (d : Display) : (s.setDisp d).pc = s.pc := rfl
@[simp] theorem State.setDisp_sp (d : Display) : (s.setDisp d).sp = s.sp := rfl
@[simp] theorem State.setDisp_stack (d : Display) : (s.setDisp d).stack = s.stack := rfl
@[simp] theorem State.setDisp_dt (d : Display) : (s.setDisp d).dt = s.dt := rfl
@[simp] theorem State.setDisp_st (d : Display) : (s.setDisp d).st = s.st := rfl
@[simp] theorem State.setDisp_disp (d : Display) : (s.setDisp d).disp = d := rfl
@[simp] theorem State.setDisp_key (d : Display) : (s.setDisp d).key = s.key := rfl
@[simp] theorem State.setDisp_mem (d : Display) : (s.setDisp d).mem = s.mem := rfl
@[simp] theorem State.setDisp_runState (d : Display) : (s.setDisp d).runState = s.runState := rfl
@[simp] theorem State.setDisp_faultCause (d : Display) : (s.setDisp d).faultCause = s.faultCause := rfl
@[simp] theorem State.setDisp_waitX (d : Display) : (s.setDisp d).waitX = s.waitX := rfl
@[simp] theorem State.setDisp_shiftSrc (d : Display) : (s.setDisp d).shiftSrc = s.shiftSrc := rfl
@[simp] theorem State.setDisp_randIn (d : Display) : (s.setDisp d).randIn = s.randIn := rfl
@[simp] theorem State.setDisp_randIx (d : Display) : (s.setDisp d).randIx = s.randIx := rfl

@[simp] theorem State.raise_v (c : Fault) : (s.raise c).v = s.v := rfl
@[simp] theorem State.raise_i (c : Fault) : (s.raise c).i = s.i := rfl
@[simp] theorem State.raise_pc (c : Fault) : (s.raise c).pc = s.pc := rfl
@[simp] theorem State.raise_sp (c : Fault) : (s.raise c).sp = s.sp := rfl
@[simp] theorem State.raise_stack (c : Fault) : (s.raise c).stack = s.stack := rfl
@[simp] theorem State.raise_dt (c : Fault) : (s.raise c).dt = s.dt := rfl
@[simp] theorem State.raise_st (c : Fault) : (s.raise c).st = s.st := rfl
@[simp] theorem State.raise_disp (c : Fault) : (s.raise c).disp = s.disp := rfl
@[simp] theorem State.raise_key (c : Fault) : (s.raise c).key = s.key := rfl
@[simp] theorem State.raise_mem (c : Fault) : (s.raise c).mem = s.mem := rfl
@[simp] theorem State.raise_runState (c : Fault) : (s.raise c).runState = .halted := rfl
@[simp] theorem State.raise_faultCause (c : Fault) : (s.raise c).faultCause = some c := rfl
@[simp] theorem State.raise_waitX (c : Fault) : (s.raise c).waitX = s.waitX := rfl
@[simp] theorem State.raise_shiftSrc (c : Fault) : (s.raise c).shiftSrc = s.shiftSrc := rfl
@[simp] theorem State.raise_randIn (c : Fault) : (s.raise c).randIn = s.randIn := rfl
@[simp] theorem State.raise_randIx (c : Fault) : (s.raise c).randIx = s.randIx := rfl

theorem State.setWithFlag_v (x : Reg) (r f : Byte) : (s.setWithFlag x r f).v = (s.v.set x r).set VF f := rfl
@[simp] theorem State.setWithFlag_i (x : Reg) (r f : Byte) : (s.setWithFlag x r f).i = s.i := rfl
@[simp] theorem State.setWithFlag_pc (x : Reg) (r f : Byte) : (s.setWithFlag x r f).pc = s.pc := rfl
@[simp] theorem State.setWithFlag_sp (x : Reg) (r f : Byte) : (s.setWithFlag x r f).sp = s.sp := rfl
@[simp] theorem State.setWithFlag_stack (x : Reg) (r f : Byte) : (s.setWithFlag x r f).stack = s.stack := rfl
@[simp] theorem State.setWithFlag_dt (x : Reg) (r f : Byte) : (s.setWithFlag x r f).dt = s.dt := rfl
@[simp] theorem State.setWithFlag_st (x : Reg) (r f : Byte) : (s.setWithFlag x r f).st = s.st := rfl
@[simp] theorem State.setWithFlag_disp (x : Reg) (r f : Byte) : (s.setWithFlag x r f).disp = s.disp := rfl
@[simp] theorem State.setWithFlag_key (x : Reg) (r f : Byte) : (s.setWithFlag x r f).key = s.key := rfl
@[simp] theorem State.setWithFlag_mem (x : Reg) (r f : Byte) : (s.setWithFlag x r f).mem = s.mem := rfl
@[simp] theorem State.setWithFlag_runState (x : Reg) (r f : Byte) : (s.setWithFlag x r f).runState = s.runState := rfl
@[simp] theorem State.setWithFlag_faultCause (x : Reg) (r f : Byte) : (s.setWithFlag x r f).faultCause = s.faultCause := rfl
@[simp] theorem State.setWithFlag_waitX (x : Reg) (r f : Byte) : (s.setWithFlag x r f).waitX = s.waitX := rfl
@[simp] theorem State.setWithFlag_shiftSrc (x : Reg) (r f : Byte) : (s.setWithFlag x r f).shiftSrc = s.shiftSrc := rfl
@[simp] theorem State.setWithFlag_randIn (x : Reg) (r f : Byte) : (s.setWithFlag x r f).randIn = s.randIn := rfl
@[simp] theorem State.setWithFlag_randIx (x : Reg) (r f : Byte) : (s.setWithFlag x r f).randIx = s.randIx := rfl

theorem State.setRegBlock_v (x : Reg) (bs : List Byte) : (s.setRegBlock x bs).v = Vector.ofFn fun k : Fin 16 => if k ≤ x then bs.getD k.val 0 else s.v[k] := rfl
@[simp] theorem State.setRegBlock_i (x : Reg) (bs : List Byte) : (s.setRegBlock x bs).i = s.i := rfl
@[simp] theorem State.setRegBlock_pc (x : Reg) (bs : List Byte) : (s.setRegBlock x bs).pc = s.pc := rfl
@[simp] theorem State.setRegBlock_sp (x : Reg) (bs : List Byte) : (s.setRegBlock x bs).sp = s.sp := rfl
@[simp] theorem State.setRegBlock_stack (x : Reg) (bs : List Byte) : (s.setRegBlock x bs).stack = s.stack := rfl
@[simp] theorem State.setRegBlock_dt (x : Reg) (bs : List Byte) : (s.setRegBlock x bs).dt = s.dt := rfl
@[simp] theorem State.setRegBlock_st (x : Reg) (bs : List Byte) : (s.setRegBlock x bs).st = s.st := rfl
@[simp] theorem State.setRegBlock_disp (x : Reg) (bs : List Byte) : (s.setRegBlock x bs).disp = s.disp := rfl
@[simp] theorem State.setRegBlock_key (x : Reg) (bs : List Byte) : (s.setRegBlock x bs).key = s.key := rfl
@[simp] theorem State.setRegBlock_mem (x : Reg) (bs : List Byte) : (s.setRegBlock x bs).mem = s.mem := rfl
@[simp] theorem State.setRegBlock_runState (x : Reg) (bs : List Byte) : (s.setRegBlock x bs).runState = s.runState := rfl
@[simp] theorem State.setRegBlock_faultCause (x : Reg) (bs : List Byte) : (s.setRegBlock x bs).faultCause = s.faultCause := rfl
@[simp] theorem State.setRegBlock_waitX (x : Reg) (bs : List Byte) : (s.setRegBlock x bs).waitX = s.waitX := rfl
@[simp] theorem State.setRegBlock_shiftSrc (x : Reg) (bs : List Byte) : (s.setRegBlock x bs).shiftSrc = s.shiftSrc := rfl
@[simp] theorem State.setRegBlock_randIn (x : Reg) (bs : List Byte) : (s.setRegBlock x bs).randIn = s.randIn := rfl
@[simp] theorem State.setRegBlock_randIx (x : Reg) (bs : List Byte) : (s.setRegBlock x bs).randIx = s.randIx := rfl

@[simp] theorem State.setKey_v (k : Fin 16) (b : Bool) : (s.setKey k b).v = s.v := rfl
@[simp] theorem State.setKey_i (k : Fin 16) (b : Bool) : (s.setKey k b).i = s.i := rfl
@[simp] theorem State.setKey_pc (k : Fin 16) (b : Bool) : (s.setKey k b).pc = s.pc := rfl
@[simp] theorem State.setKey_sp (k : Fin 16) (b : Bool) : (s.setKey k b).sp = s.sp := rfl
@[simp] theorem State.setKey_stack (k : Fin 16) (b : Bool) : (s.setKey k b).stack = s.stack := rfl
@[simp] theorem State.setKey_dt (k : Fin 16) (b : Bool) : (s.setKey k b).dt = s.dt := rfl
@[simp] theorem State.setKey_st (k : Fin 16) (b : Bool) : (s.setKey k b).st = s.st := rfl
@[simp] theorem State.setKey_disp (k : Fin 16) (b : Bool) : (s.setKey k b).disp = s.disp := rfl
theorem State.setKey_key (k : Fin 16) (b : Bool) : (s.setKey k b).key = s.key.set k b := rfl
@[simp] theorem State.setKey_mem (k : Fin 16) (b : Bool) : (s.setKey k b).mem = s.mem := rfl
@[simp] theorem State.setKey_runState (k : Fin 16) (b : Bool) : (s.setKey k b).runState = s.runState := rfl
@[simp] theorem State.setKey_faultCause (k : Fin 16) (b : Bool) : (s.setKey k b).faultCause = s.faultCause := rfl
@[simp] theorem State.setKey_waitX (k : Fin 16) (b : Bool) : (s.setKey k b).waitX = s.waitX := rfl
@[simp] theorem State.setKey_shiftSrc (k : Fin 16) (b : Bool) : (s.setKey k b).shiftSrc = s.shiftSrc := rfl
@[simp] theorem State.setKey_randIn (k : Fin 16) (b : Bool) : (s.setKey k b).randIn = s.randIn := rfl
@[simp] theorem State.setKey_randIx (k : Fin 16) (b : Bool) : (s.setKey k b).randIx = s.randIx := rfl

@[simp] theorem State.tick_v : (s.tick).v = s.v := rfl
@[simp] theorem State.tick_i : (s.tick).i = s.i := rfl
@[simp] theorem State.tick_pc : (s.tick).pc = s.pc := rfl
@[simp] theorem State.tick_sp : (s.tick).sp = s.sp := rfl
@[simp] theorem State.tick_stack : (s.tick).stack = s.stack := rfl
@[simp] theorem State.tick_dt : (s.tick).dt = countDown s.dt := rfl
@[simp] theorem State.tick_st : (s.tick).st = countDown s.st := rfl
@[simp] theorem State.tick_disp : (s.tick).disp = s.disp := rfl
@[simp] theorem State.tick_key : (s.tick).key = s.key := rfl
@[simp] theorem State.tick_mem : (s.tick).mem = s.mem := rfl
@[simp] theorem State.tick_runState : (s.tick).runState = s.runState := rfl
@[simp] theorem State.tick_faultCause : (s.tick).faultCause = s.faultCause := rfl
@[simp] theorem State.tick_waitX : (s.tick).waitX = s.waitX := rfl
@[simp] theorem State.tick_shiftSrc : (s.tick).shiftSrc = s.shiftSrc := rfl
@[simp] theorem State.tick_randIn : (s.tick).randIn = s.randIn := rfl
@[simp] theorem State.tick_randIx : (s.tick).randIx = s.randIx := rfl

@[simp] theorem State.skipIf_v (c : Bool) : (s.skipIf c).v = s.v := by cases c <;> rfl
@[simp] theorem State.skipIf_i (c : Bool) : (s.skipIf c).i = s.i := by cases c <;> rfl
@[simp] theorem State.skipIf_pc (c : Bool) : (s.skipIf c).pc = if c then s.pc + 2 else s.pc := by cases c <;> rfl
@[simp] theorem State.skipIf_sp (c : Bool) : (s.skipIf c).sp = s.sp := by cases c <;> rfl
@[simp] theorem State.skipIf_stack (c : Bool) : (s.skipIf c).stack = s.stack := by cases c <;> rfl
@[simp] theorem State.skipIf_dt (c : Bool) : (s.skipIf c).dt = s.dt := by cases c <;> rfl
@[simp] theorem State.skipIf_st (c : Bool) : (s.skipIf c).st = s.st := by cases c <;> rfl
@[simp] theorem State.skipIf_disp (c : Bool) : (s.skipIf c).disp = s.disp := by cases c <;> rfl
@[simp] theorem State.skipIf_key (c : Bool) : (s.skipIf c).key = s.key := by cases c <;> rfl
@[simp] theorem State.skipIf_mem (c : Bool) : (s.skipIf c).mem = s.mem := by cases c <;> rfl
@[simp] theorem State.skipIf_runState (c : Bool) : (s.skipIf c).runState = s.runState := by cases c <;> rfl
@[simp] theorem State.skipIf_faultCause (c : Bool) : (s.skipIf c).faultCause = s.faultCause := by cases c <;> rfl
@[simp] theorem State.skipIf_waitX (c : Bool) : (s.skipIf c).waitX = s.waitX := by cases c <;> rfl
@[simp] theorem State.skipIf_shiftSrc (c : Bool) : (s.skipIf c).shiftSrc = s.shiftSrc := by cases c <;> rfl
@[simp] theorem State.skipIf_randIn (c : Bool) : (s.skipIf c).randIn = s.randIn := by cases c <;> rfl
@[simp] theorem State.skipIf_randIx (c : Bool) : (s.skipIf c).randIx = s.randIx := by cases c <;> rfl

@[simp] theorem State.takeRand_v : s.takeRand.v = s.v := by unfold State.takeRand; split <;> rfl
@[simp] theorem State.takeRand_i : s.takeRand.i = s.i := by unfold State.takeRand; split <;> rfl
@[simp] theorem State.takeRand_pc : s.takeRand.pc = s.pc := by unfold State.takeRand; split <;> rfl
@[simp] theorem State.takeRand_sp : s.takeRand.sp = s.sp := by unfold State.takeRand; split <;> rfl
@[simp] theorem State.takeRand_stack : s.takeRand.stack = s.stack := by unfold State.takeRand; split <;> rfl
@[simp] theorem State.takeRand_dt : s.takeRand.dt = s.dt := by unfold State.takeRand; split <;> rfl
@[simp] theorem State.takeRand_st : s.takeRand.st = s.st := by unfold State.takeRand; split <;> rfl
@[simp] theorem State.takeRand_disp : s.takeRand.disp = s.disp := by unfold State.takeRand; split <;> rfl
@[simp] theorem State.takeRand_key : s.takeRand.key = s.key := by unfold State.takeRand; split <;> rfl
@[simp] theorem State.takeRand_mem : s.takeRand.mem = s.mem := by unfold State.takeRand; split <;> rfl
@[simp] theorem State.takeRand_runState : s.takeRand.runState = s.runState := by unfold State.takeRand; split <;> rfl
@[simp] theorem State.takeRand_faultCause : s.takeRand.faultCause = s.faultCause := by unfold State.takeRand; split <;> rfl
@[simp] theorem State.takeRand_waitX : s.takeRand.waitX = s.waitX := by unfold State.takeRand; split <;> rfl
@[simp] theorem State.takeRand_shiftSrc : s.takeRand.shiftSrc = s.shiftSrc := by unfold State.takeRand; split <;> rfl

/-! ### Registers and keys read back -/

@[simp] theorem State.setV_get (x : Reg) (b : Byte) (k : Nat) (h : k < 16) :
    (s.setV x b).v[k] = if x.val = k then b else s.v[k] := by
  simp [State.setV_v, Vector.getElem_set]

@[simp] theorem State.setWithFlag_get (x : Reg) (r f : Byte) (k : Nat) (h : k < 16) :
    (s.setWithFlag x r f).v[k] = if 15 = k then f else if x.val = k then r else s.v[k] := by
  simp [State.setWithFlag_v, Vector.getElem_set]

@[simp] theorem State.setRegBlock_get (x : Reg) (bs : List Byte) (k : Nat) (h : k < 16) :
    (s.setRegBlock x bs).v[k] = if k ≤ x.val then bs.getD k 0 else s.v[k] := by
  simp only [State.setRegBlock_v, Vector.getElem_ofFn]
  rfl

@[simp] theorem State.setKey_get (k : Fin 16) (b : Bool) (j : Nat) (h : j < 16) :
    (s.setKey k b).key[j] = if k.val = j then b else s.key[j] := by
  simp [State.setKey_key, Vector.getElem_set]

/-! ### The random input -/

theorem State.rand_cons (b : Byte) (bs : List Byte) : State.rand { s with randIn := b :: bs } = b := rfl

theorem State.takeRand_cons (b : Byte) (bs : List Byte) :
    State.takeRand { s with randIn := b :: bs } = { s with randIn := bs } := rfl

end Sys2Proof.Machine
end

