-- ==== Sys2Proof/Laws/Display.lean ====
section
/-! SUPPORT. The display as a grid of cells: toggling, plotting a list of cells, and the cells of a sprite. -/

namespace Sys2Proof.Machine

/-! ### Cells -/

@[simp] theorem Display.cell_clear (p : Fin 32 × Fin 64) : Display.clear.cell p = false := by
  simp [Display.cell, Display.clear]

theorem Display.cell_toggle (d : Display) (p q : Fin 32 × Fin 64) :
    (d.toggle p).cell q = if p = q then !d.cell q else d.cell q := by
  obtain ⟨r, c⟩ := p
  obtain ⟨r', c'⟩ := q
  simp only [Display.toggle, Display.cell, Fin.getElem_fin, Vector.getElem_set, Prod.mk.injEq, Fin.ext_iff]
  by_cases hr : r.val = r'.val
  · by_cases hc : c.val = c'.val <;> simp [hr, hc]
  · simp [hr]

/-- Two displays with the same cells are the same display. -/
theorem Display.ext_cell {d e : Display} (h : ∀ p, d.cell p = e.cell p) : d = e := by
  apply Vector.ext
  intro r hr
  apply Vector.ext
  intro c hc
  exact h (⟨r, hr⟩, ⟨c, hc⟩)

/-! ### Plotting -/

theorem plotCells_notMem (ps : List (Fin 32 × Fin 64)) (d : Display) (f : Bool) (q : Fin 32 × Fin 64) (h : q ∉ ps) :
    (plotCells d f ps).1.cell q = d.cell q := by
  induction ps generalizing d f with
  | nil => rfl
  | cons p ps ih =>
    simp only [List.mem_cons, not_or] at h
    rw [plotCells, ih _ _ h.2, Display.cell_toggle, if_neg (Ne.symm h.1)]

/-- Plotting distinct cells toggles exactly those. -/
theorem plotCells_cell (ps : List (Fin 32 × Fin 64)) (hnd : ps.Nodup) (d : Display) (f : Bool) (q : Fin 32 × Fin 64) :
    (plotCells d f ps).1.cell q = (d.cell q ^^ decide (q ∈ ps)) := by
  induction ps generalizing d f with
  | nil => simp [plotCells]
  | cons p ps ih =>
    rw [List.nodup_cons] at hnd
    rw [plotCells]
    by_cases hq : p = q
    · subst hq
      rw [plotCells_notMem _ _ _ _ hnd.1, Display.cell_toggle]
      simp
    · rw [ih hnd.2, Display.cell_toggle, if_neg hq]
      simp [Ne.symm hq]

/-- Plotting distinct cells collides exactly when one of them was set. -/
theorem plotCells_flag (ps : List (Fin 32 × Fin 64)) (hnd : ps.Nodup) (d : Display) (f : Bool) :
    (plotCells d f ps).2 = (f || ps.any d.cell) := by
  induction ps generalizing d f with
  | nil => simp [plotCells]
  | cons p ps ih =>
    rw [List.nodup_cons] at hnd
    rw [plotCells, ih hnd.2, List.any_cons, ← Bool.or_assoc]
    congr 1
    apply Bool.eq_iff_iff.mpr
    simp only [List.any_eq_true]
    constructor <;> rintro ⟨q, hq, hc⟩ <;> refine ⟨q, hq, ?_⟩ <;>
      have hne : p ≠ q := fun e => hnd.1 (e ▸ hq)
    · rwa [Display.cell_toggle, if_neg hne] at hc
    · rwa [Display.cell_toggle, if_neg hne]

/-! ### The cells of a sprite -/

theorem mem_rowCells (vx row : Nat) (b : Byte) (q : Fin 32 × Fin 64) :
    q ∈ rowCells vx row b ↔ ∃ col, col < 8 ∧ b.getLsbD (7 - col) = true ∧ q = wrapCell row (vx + col) := by
  simp only [rowCells, List.mem_map, List.mem_filter, List.mem_range]
  constructor
  · rintro ⟨col, ⟨h, hb⟩, rfl⟩
    exact ⟨col, h, hb, rfl⟩
  · rintro ⟨col, h, hb, rfl⟩
    exact ⟨col, ⟨h, hb⟩, rfl⟩

theorem mem_spriteCells (vx vy : Nat) (rows : List Byte) (q : Fin 32 × Fin 64) :
    q ∈ spriteCells vx vy rows ↔
      ∃ row, ∃ h : row < rows.length, ∃ col, col < 8 ∧ rows[row].getLsbD (7 - col) = true ∧
        q = wrapCell (vy + row) (vx + col) := by
  induction rows generalizing vy with
  | nil => simp [spriteCells]
  | cons b rows ih =>
    rw [spriteCells, List.mem_append, mem_rowCells, ih]
    constructor
    · rintro (⟨col, h, hb, rfl⟩ | ⟨row, hr, col, h, hb, rfl⟩)
      · exact ⟨0, by simp, col, h, by simpa using hb, rfl⟩
      · exact ⟨row + 1, by simpa using hr, col, h, by simpa using hb, by rw [show vy + (row + 1) = vy + 1 + row by omega]⟩
    · rintro ⟨row, hr, col, h, hb, rfl⟩
      cases row with
      | zero => exact .inl ⟨col, h, by simpa using hb, rfl⟩
      | succ row =>
        exact .inr ⟨row, by simpa using hr, col, h, by simpa using hb, by rw [show vy + (row + 1) = vy + 1 + row by omega]⟩

theorem wrapCell_inj {r r' c c' : Nat} (h : wrapCell r c = wrapCell r' c') : r % 32 = r' % 32 ∧ c % 64 = c' % 64 := by
  simpa [wrapCell, Fin.ext_iff] using h

theorem rowCells_nodup (vx row : Nat) (b : Byte) : (rowCells vx row b).Nodup := by
  unfold rowCells
  rw [List.nodup_map_iff_inj_on (List.nodup_range.filter _)]
  intro c hc c' hc' h
  simp only [List.mem_filter, List.mem_range] at hc hc'
  have := (wrapCell_inj h).2
  omega

/-- "No cell is toggled twice by one DRW" (R161 f). -/
theorem spriteCells_nodup (vx vy : Nat) (rows : List Byte) (h : rows.length ≤ 32) : (spriteCells vx vy rows).Nodup := by
  induction rows generalizing vy with
  | nil => exact List.nodup_nil
  | cons b rows ih =>
    simp only [List.length_cons] at h
    rw [spriteCells, List.nodup_append]
    refine ⟨rowCells_nodup _ _ _, ih _ (by omega), ?_⟩
    intro p hp q hq hpq
    subst hpq
    obtain ⟨c, _, _, rfl⟩ := (mem_rowCells _ _ _ _).mp hp
    obtain ⟨r, hr, c', _, _, he⟩ := (mem_spriteCells _ _ _ _).mp hq
    have := (wrapCell_inj he).1
    omega

/-! ### What drawing leaves alone -/

theorem State.drawSprite_eq (s : State) (x y : Reg) (rows : List Byte) :
    s.drawSprite x y rows =
      (s.setDisp (plotCells s.disp false (spriteCells (s.reg x).toNat (s.reg y).toNat rows)).1).setV VF
        (flagByte (plotCells s.disp false (spriteCells (s.reg x).toNat (s.reg y).toNat rows)).2) := rfl

end Sys2Proof.Machine
end

