-- ==== Sys2Proof/Laws/Encoding.lean ====
section
/-! SUPPORT. What the field extractions give on the words the encoder builds, and the fields of a word known through a mask. -/

namespace Sys2Proof

/-! ### Fields of encoded words -/

@[simp] theorem fieldClass_asmXyn (c : BitVec 4) (x y : Reg) (n : BitVec 4) : fieldClass (asmXyn c x y n) = c := by
  ext k hk
  interval_cases k <;> simp only [fieldClass, asmXyn, BitVec.getElem_extractLsb', BitVec.getLsbD_append] <;> rfl

@[simp] theorem fieldX_asmXyn (c : BitVec 4) (x y : Reg) (n : BitVec 4) : fieldX (asmXyn c x y n) = x := by
  suffices h : (asmXyn c x y n).extractLsb' 8 4 = regBits x by rw [fieldX, h]; rfl
  ext k hk
  interval_cases k <;> simp only [asmXyn, BitVec.getElem_extractLsb', BitVec.getLsbD_append] <;> rfl

@[simp] theorem fieldY_asmXyn (c : BitVec 4) (x y : Reg) (n : BitVec 4) : fieldY (asmXyn c x y n) = y := by
  suffices h : (asmXyn c x y n).extractLsb' 4 4 = regBits y by rw [fieldY, h]; rfl
  ext k hk
  interval_cases k <;> simp only [asmXyn, BitVec.getElem_extractLsb', BitVec.getLsbD_append] <;> rfl

@[simp] theorem fieldN_asmXyn (c : BitVec 4) (x y : Reg) (n : BitVec 4) : fieldN (asmXyn c x y n) = n := by
  ext k hk
  interval_cases k <;> simp only [fieldN, asmXyn, BitVec.getElem_extractLsb', BitVec.getLsbD_append] <;> rfl

@[simp] theorem fieldClass_asmXnn (c : BitVec 4) (x : Reg) (nn : Byte) : fieldClass (asmXnn c x nn) = c := by
  ext k hk
  interval_cases k <;> simp only [fieldClass, asmXnn, BitVec.getElem_extractLsb', BitVec.getLsbD_append] <;> rfl

@[simp] theorem fieldX_asmXnn (c : BitVec 4) (x : Reg) (nn : Byte) : fieldX (asmXnn c x nn) = x := by
  suffices h : (asmXnn c x nn).extractLsb' 8 4 = regBits x by rw [fieldX, h]; rfl
  ext k hk
  interval_cases k <;> simp only [asmXnn, BitVec.getElem_extractLsb', BitVec.getLsbD_append] <;> rfl

@[simp] theorem fieldNn_asmXnn (c : BitVec 4) (x : Reg) (nn : Byte) : fieldNn (asmXnn c x nn) = nn := by
  ext k hk
  interval_cases k <;> simp only [fieldNn, asmXnn, BitVec.getElem_extractLsb', BitVec.getLsbD_append] <;> rfl

@[simp] theorem fieldClass_asmNnn (c : BitVec 4) (nnn : BitVec 12) : fieldClass (asmNnn c nnn) = c := by
  ext k hk
  interval_cases k <;> simp only [fieldClass, asmNnn, BitVec.getElem_extractLsb', BitVec.getLsbD_append] <;> rfl

@[simp] theorem fieldNnn_asmNnn (c : BitVec 4) (nnn : BitVec 12) : fieldNnn (asmNnn c nnn) = nnn := by
  ext k hk
  interval_cases k <;> simp only [fieldNnn, asmNnn, BitVec.getElem_extractLsb', BitVec.getLsbD_append] <;> rfl

/-! ### A word is its fields -/

theorem asmXyn_fields (w : Word) : asmXyn (fieldClass w) (fieldX w) (fieldY w) (fieldN w) = w := by
  have hx : regBits (fieldX w) = w.extractLsb' 8 4 := rfl
  have hy : regBits (fieldY w) = w.extractLsb' 4 4 := rfl
  apply BitVec.eq_of_getLsbD_eq
  intro k hk
  interval_cases k <;>
    simp only [asmXyn, hx, hy, fieldClass, fieldN, BitVec.getLsbD_append, BitVec.getLsbD_extractLsb'] <;> rfl

theorem asmXnn_fields (w : Word) : asmXnn (fieldClass w) (fieldX w) (fieldNn w) = w := by
  have hx : regBits (fieldX w) = w.extractLsb' 8 4 := rfl
  apply BitVec.eq_of_getLsbD_eq
  intro k hk
  interval_cases k <;>
    simp only [asmXnn, hx, fieldClass, fieldNn, BitVec.getLsbD_append, BitVec.getLsbD_extractLsb'] <;> rfl

theorem asmNnn_fields (w : Word) : asmNnn (fieldClass w) (fieldNnn w) = w := by
  apply BitVec.eq_of_getLsbD_eq
  intro k hk
  interval_cases k <;>
    simp only [asmNnn, fieldClass, fieldNnn, BitVec.getLsbD_append, BitVec.getLsbD_extractLsb'] <;> rfl

/-! ### Words known through a mask -/

theorem fieldClass_of_mask {w p : Word} (h : w &&& 0xF000 = p) : fieldClass w = fieldClass p := by
  subst h
  ext k hk
  interval_cases k <;> simp only [fieldClass, BitVec.getElem_extractLsb', BitVec.getLsbD_and] <;> simp

theorem fieldClass_fieldN_of_mask {w p : Word} (h : w &&& 0xF00F = p) :
    fieldClass w = fieldClass p ∧ fieldN w = fieldN p := by
  subst h
  constructor <;> ext k hk <;> interval_cases k <;>
    simp only [fieldClass, fieldN, BitVec.getElem_extractLsb', BitVec.getLsbD_and] <;> simp

theorem fieldClass_fieldNn_of_mask {w p : Word} (h : w &&& 0xF0FF = p) :
    fieldClass w = fieldClass p ∧ fieldNn w = fieldNn p := by
  subst h
  constructor <;> ext k hk <;> interval_cases k <;>
    simp only [fieldClass, fieldNn, BitVec.getElem_extractLsb', BitVec.getLsbD_and] <;> simp

/-! ### Bytes and words -/

@[simp] theorem wordOfBytes_bytesOfWord (w : Word) : wordOfBytes (w.extractLsb' 8 8) (w.extractLsb' 0 8) = w := by
  apply BitVec.eq_of_getLsbD_eq
  intro k hk
  interval_cases k <;> simp only [wordOfBytes, BitVec.getLsbD_append, BitVec.getLsbD_extractLsb'] <;> rfl

end Sys2Proof
end

