-- ==== Sys2Proof/Laws/Memory.lean ====
section
/-! SUPPORT. The laws of memory: what a read sees after a write, that every operation keeps the canonical form, and that two
memories in that form are equal when they read alike. -/

namespace Sys2Proof.Machine

/-! ### Read after write -/

theorem Memory.read_insert (m : Memory) (a b : Nat) (v : Byte) :
    (Memory.insert a v m).read b = if b = a then v else m.read b := by
  induction m with
  | nil => simp [Memory.insert, Memory.read]
  | cons c rest ih =>
    obtain ⟨d, u⟩ := c
    simp only [Memory.insert]
    split
    · simp [Memory.read]
    · split
      · subst_vars
        simp only [Memory.read]
        split <;> rfl
      · simp only [Memory.read, ih]
        split <;> split <;> first | rfl | omega

theorem Memory.read_erase (m : Memory) (a b : Nat) :
    (Memory.erase a m).read b = if b = a then Memory.resetByte a else m.read b := by
  induction m with
  | nil => simp only [Memory.erase, Memory.read]; split <;> simp_all
  | cons c rest ih =>
    obtain ⟨d, u⟩ := c
    simp only [Memory.erase]
    split
    · rw [ih]; simp only [Memory.read]; split <;> simp_all
    · simp only [Memory.read, ih]
      split <;> split <;> first | rfl | omega

theorem Memory.read_write (m : Memory) (a b : Nat) (v : Byte) (h : a < 4096) :
    (m.write a v).read b = if b = a then v else m.read b := by
  simp only [Memory.write, Config.memSize, h, if_true]
  split
  · rename_i hv; rw [Memory.read_erase, hv]
  · exact Memory.read_insert m a b v

/-- A write leaves every other address alone, wherever it is. -/
theorem Memory.read_write_ne (m : Memory) (a b : Nat) (v : Byte) (h : b ≠ a) : (m.write a v).read b = m.read b := by
  by_cases ha : a < 4096
  · simp [Memory.read_write m a b v ha, h]
  · simp [Memory.write, Config.memSize, ha]

/-- Bytes outside the stored range read as before. -/
theorem Memory.read_writeBytes_outside (vs : List Byte) (m : Memory) (a b : Nat) (h : b < a ∨ a + vs.length ≤ b) :
    (m.writeBytes a vs).read b = m.read b := by
  induction vs generalizing m a with
  | nil => rfl
  | cons v vs ih =>
    simp only [List.length_cons] at h
    rw [Memory.writeBytes, ih _ _ (by omega), Memory.read_write_ne _ _ _ _ (by omega)]

/-- The stored range reads as the bytes stored. -/
theorem Memory.read_writeBytes_inside (vs : List Byte) (m : Memory) (a k : Nat) (hk : k < vs.length)
    (h : a + vs.length ≤ 4096) : (m.writeBytes a vs).read (a + k) = vs[k] := by
  induction vs generalizing m a k with
  | nil => simp at hk
  | cons v vs ih =>
    simp only [List.length_cons] at h hk
    rw [Memory.writeBytes]
    cases k with
    | zero =>
      rw [Memory.read_writeBytes_outside _ _ _ _ (by omega), Memory.read_write _ _ _ _ (by omega)]
      simp
    | succ k =>
      have := ih (m.write a v) (a + 1) k (by omega) (by omega)
      rw [show a + (k + 1) = a + 1 + k by omega, this]
      simp

/-- Every address after a run of bytes is stored: one of the bytes, or as before. -/
theorem Memory.read_writeBytes (vs : List Byte) (m : Memory) (a b : Nat) (h : a + vs.length ≤ 4096) :
    (m.writeBytes a vs).read b = if a ≤ b then vs.getD (b - a) (m.read b) else m.read b := by
  split
  · by_cases hb : b - a < vs.length
    · rw [List.getD_eq_getElem _ _ hb, ← Memory.read_writeBytes_inside vs m a (b - a) hb h, show a + (b - a) = b by omega]
    · rw [List.getD_eq_default _ _ (by omega), Memory.read_writeBytes_outside _ _ _ _ (.inr (by omega))]
  · exact Memory.read_writeBytes_outside _ _ _ _ (.inl (by omega))

@[simp] theorem Memory.readBytes_length (m : Memory) (a len : Nat) : (m.readBytes a len).length = len := by
  induction len generalizing a with
  | zero => rfl
  | succ n ih => simp [Memory.readBytes, ih]

@[simp] theorem Memory.readBytes_get (m : Memory) (a len k : Nat) (h : k < (m.readBytes a len).length) :
    (m.readBytes a len)[k] = m.read (a + k) := by
  induction len generalizing a k with
  | zero => simp [Memory.readBytes] at h
  | succ n ih =>
    cases k with
    | zero => simp [Memory.readBytes]
    | succ k =>
      simp only [Memory.readBytes, List.getElem_cons_succ]
      rw [ih]
      congr 1
      omega

/-! ### The canonical form -/

theorem Memory.wfFrom_mono (m : Memory) {lo lo' : Nat} (h : lo' ≤ lo) (hm : Memory.wfFrom lo m = true) :
    Memory.wfFrom lo' m = true := by
  cases m with
  | nil => rfl
  | cons c rest => simp_all [Memory.wfFrom]; omega

theorem Memory.insert_wfFrom (m : Memory) (lo a : Nat) (v : Byte) (hm : Memory.wfFrom lo m = true) (hlo : lo ≤ a)
    (ha : a < 4096) (hv : v ≠ Memory.resetByte a) : Memory.wfFrom lo (Memory.insert a v m) = true := by
  induction m generalizing lo with
  | nil => simp_all [Memory.insert, Memory.wfFrom]
  | cons c rest ih =>
    obtain ⟨b, u⟩ := c
    simp only [Memory.wfFrom, Bool.and_eq_true, decide_eq_true_eq] at hm
    simp only [Memory.insert]
    split
    · simp_all [Memory.wfFrom]
    · split
      · subst_vars; simp_all [Memory.wfFrom]
      · have := ih (b + 1) hm.2 (by omega)
        simp_all [Memory.wfFrom]

theorem Memory.erase_wfFrom (m : Memory) (lo a : Nat) (hm : Memory.wfFrom lo m = true) :
    Memory.wfFrom lo (Memory.erase a m) = true := by
  induction m generalizing lo with
  | nil => rfl
  | cons c rest ih =>
    obtain ⟨b, u⟩ := c
    simp only [Memory.wfFrom, Bool.and_eq_true, decide_eq_true_eq] at hm
    have := ih (b + 1) hm.2
    simp only [Memory.erase]
    split
    · exact Memory.wfFrom_mono _ (by omega) this
    · simp_all [Memory.wfFrom]

/-- A write keeps the canonical form. -/
theorem Memory.write_wf (m : Memory) (a : Nat) (v : Byte) (hm : m.wf = true) : (m.write a v).wf = true := by
  simp only [Memory.write]
  split
  · split
    · exact Memory.erase_wfFrom m 0 a hm
    · exact Memory.insert_wfFrom m 0 a v hm (by omega) ‹_› ‹_›
  · exact hm

theorem Memory.writeBytes_wf (vs : List Byte) (m : Memory) (a : Nat) (hm : m.wf = true) :
    (m.writeBytes a vs).wf = true := by
  induction vs generalizing m a with
  | nil => exact hm
  | cons v vs ih => exact ih _ _ (Memory.write_wf m a v hm)

theorem Memory.reset_wf : State.reset.mem.wf = true := rfl

/-- Below the first listed address a canonical memory reads as after Reset. -/
theorem Memory.read_of_lt (m : Memory) (lo a : Nat) (hm : Memory.wfFrom lo m = true) (h : a < lo) :
    m.read a = Memory.resetByte a := by
  induction m generalizing lo with
  | nil => rfl
  | cons c rest ih =>
    obtain ⟨b, u⟩ := c
    simp only [Memory.wfFrom, Bool.and_eq_true, decide_eq_true_eq] at hm
    simp only [Memory.read]
    rw [if_neg (by omega), ih (b + 1) hm.2 (by omega)]

end Sys2Proof.Machine
end

