-- ==== Sys2Proof/Laws/Ops.lean ====
section
/-! SUPPORT. One lemma per shared operation, saying once everything it can do. -/

namespace Sys2Proof.Machine

variable (s : State)

/-! ### The call stack -/

theorem State.push_of_room (w : Word) (h : s.sp.val < 16) :
    s.push w = some { s with stack := s.stack.set s.sp.val w, sp := ⟨s.sp.val + 1, by omega⟩ } := by
  simp [State.push, h]

theorem State.push_full (w : Word) (h : ¬ s.sp.val < 16) : s.push w = none := by
  simp [State.push, h]

theorem State.pop_of_entry (h : 0 < s.sp.val) :
    s.pop = some (s.stack[s.sp.val - 1], { s with sp := ⟨s.sp.val - 1, by omega⟩ }) := by
  simp [State.pop, h]

theorem State.pop_empty (h : ¬ 0 < s.sp.val) : s.pop = none := by
  simp [State.pop, h]

/-! ### Range checks -/

theorem readFault_eq_none_iff (addr len : Nat) : readFault addr len = none ↔ len = 0 ∨ addr + len ≤ 4096 := by
  simp only [readFault, Config.memSize]
  split <;> simp <;> omega

theorem readFault_of_out (addr len : Nat) (h0 : len ≠ 0) (h : 4096 < addr + len) :
    readFault addr len = some .dataAddressOutOfBounds := by
  simp [readFault, Config.memSize, h0, h]

theorem writeFault_eq_none_iff (addr len : Nat) :
    writeFault addr len = none ↔ len = 0 ∨ (0x200 ≤ addr ∧ addr + len ≤ 4096) := by
  simp only [writeFault, Config.memSize, Config.loadOffset]
  split
  · simp_all
  · split
    · simp; omega
    · split <;> simp <;> omega

theorem writeFault_of_low (addr len : Nat) (h0 : len ≠ 0) (h : addr < 0x200) :
    writeFault addr len = some .writeProtected := by
  simp [writeFault, Config.loadOffset, h0, h]

theorem writeFault_of_out (addr len : Nat) (h0 : len ≠ 0) (hl : 0x200 ≤ addr) (h : 4096 < addr + len) :
    writeFault addr len = some .dataAddressOutOfBounds := by
  simp [writeFault, Config.loadOffset, Config.memSize, h0, h, Nat.not_lt.mpr hl]

/-! ### Loads and stores -/

theorem State.load_of_ok (addr len : Nat) (h : len = 0 ∨ addr + len ≤ 4096) :
    s.load addr len = .ok (s.mem.readBytes addr len) := by
  simp [State.load, (readFault_eq_none_iff addr len).mpr h]

theorem State.load_of_out (addr len : Nat) (h0 : len ≠ 0) (h : 4096 < addr + len) :
    s.load addr len = .error .dataAddressOutOfBounds := by
  simp [State.load, readFault_of_out addr len h0 h]

theorem State.store_of_ok (addr : Nat) (bs : List Byte) (h : bs.length = 0 ∨ (0x200 ≤ addr ∧ addr + bs.length ≤ 4096)) :
    s.store addr bs = .ok { s with mem := s.mem.writeBytes addr bs } := by
  simp [State.store, (writeFault_eq_none_iff addr bs.length).mpr h]

theorem State.store_of_low (addr : Nat) (bs : List Byte) (h0 : bs.length ≠ 0) (h : addr < 0x200) :
    s.store addr bs = .error .writeProtected := by
  simp [State.store, writeFault_of_low addr bs.length h0 h]

theorem State.store_of_out (addr : Nat) (bs : List Byte) (h0 : bs.length ≠ 0) (hl : 0x200 ≤ addr)
    (h : 4096 < addr + bs.length) : s.store addr bs = .error .dataAddressOutOfBounds := by
  simp [State.store, writeFault_of_out addr bs.length h0 hl h]

/-- A load answers the bytes, or the one fault a read can raise. -/
theorem State.load_cases (addr len : Nat) :
    s.load addr len = .ok (s.mem.readBytes addr len) ∨ s.load addr len = .error .dataAddressOutOfBounds := by
  by_cases h : len = 0 ∨ addr + len ≤ 4096
  · exact .inl (s.load_of_ok addr len h)
  · exact .inr (s.load_of_out addr len (by omega) (by omega))

/-- A store through I changes memory alone, at or above 0x200, or is a fault entry. -/
theorem storeThroughI_cases (bs : List Byte) :
    ((bs.length = 0 ∨ 0x200 ≤ s.i.toNat) ∧ storeThroughI bs s = { s with mem := s.mem.writeBytes s.i.toNat bs }) ∨
    storeThroughI bs s = s.raise .writeProtected ∨ storeThroughI bs s = s.raise .dataAddressOutOfBounds := by
  have e : s.effAddr 0 = s.i.toNat := by simp [State.effAddr]
  simp only [storeThroughI, e]
  by_cases h0 : bs.length = 0
  · exact .inl ⟨.inl h0, by rw [s.store_of_ok _ _ (.inl h0)]⟩
  · by_cases hl : s.i.toNat < 0x200
    · exact .inr (.inl (by rw [s.store_of_low _ _ h0 hl]))
    · by_cases ho : s.i.toNat + bs.length ≤ 4096
      · exact .inl ⟨.inr (by omega), by rw [s.store_of_ok _ _ (.inr ⟨by omega, ho⟩)]⟩
      · exact .inr (.inr (by rw [s.store_of_out _ _ h0 (by omega) (by omega)]))

/-! ### Operands -/

@[simp] theorem State.effAddr_eq (k : Nat) : s.effAddr k = s.i.toNat + k := rfl

@[simp] theorem zextNnn_toNat (nnn : BitVec 12) : (zextNnn nnn).toNat = nnn.toNat := by
  simp [zextNnn, BitVec.toNat_setWidth]
  omega

@[simp] theorem bcdDigits_length (b : Byte) : (bcdDigits b).length = 3 := rfl

@[simp] theorem State.regBlock_length (x : Reg) : (s.regBlock x).length = x.val + 1 := by
  simp [State.regBlock]

@[simp] theorem State.regBlock_get (x : Reg) (k : Nat) (h : k < (s.regBlock x).length) :
    (s.regBlock x)[k] = s.v[k]'(by simp at h; omega) := by
  simp [State.regBlock]

/-! ### Keypad -/

theorem State.leastKey_eq_none_iff : s.leastKey = none ↔ ∀ k : Fin 16, s.key[k] = false := by
  simp [State.leastKey]

theorem State.leastKey_eq_some_iff (k : Fin 16) :
    s.leastKey = some k ↔ s.key[k] = true ∧ ∀ j : Fin 16, j < k → s.key[j] = false := by
  unfold State.leastKey
  rw [List.find?_eq_some_iff_getElem]
  constructor
  · rintro ⟨hk, i, hi, rfl, hlt⟩
    refine ⟨by simpa using hk, fun j hj => ?_⟩
    have := hlt j.val (by simpa [Fin.lt_def] using hj)
    simpa using this
  · rintro ⟨hk, hlt⟩
    refine ⟨by simpa using hk, k.val, by simp, by simp, fun j hj => ?_⟩
    have := hlt ⟨j, by omega⟩ (by simpa [Fin.lt_def] using hj)
    simpa using this

/-! ### The random input -/

/-- A supplied byte is read and used up. -/
theorem State.rand_of_supplied (b : Byte) (bs : List Byte) (h : s.randIn = b :: bs) :
    s.rand = b ∧ s.takeRand = { s with randIn := bs } := by simp [State.rand, State.takeRand, h]

/-- With none supplied the next free byte is read, and the counter moves on. -/
theorem State.rand_of_none (h : s.randIn = []) :
    s.rand = Config.randByte s.randIx ∧ s.takeRand = { s with randIx := s.randIx + 1 } := by
  simp [State.rand, State.takeRand, h]

end Sys2Proof.Machine
end

