-- ==== Sys2Proof/Laws/Frames.lean ====
section
/-! SUPPORT. What the shared operations leave unchanged, in the words of Safety.lean, and what an instruction that can end
in more than one way can end in. -/

namespace Sys2Proof.Machine

variable (s t : State)

/-! ### Frames of the operations -/

theorem State.raise_faultsInto (c : Fault) : s.faultsInto (s.raise c) c := by
  refine ⟨rfl, rfl, ?_⟩
  intro p hp; cases p <;> simp_all [Part.same]

theorem State.setV_onlyChanges (x : Reg) (b : Byte) : s.onlyChanges (s.setV x b) fun p => p = .v x := by
  intro p hp; cases p <;> simp_all [Part.same]
  intro h; exact absurd (Fin.ext h.symm) hp

theorem State.setPc_onlyChanges (w : Word) : s.onlyChanges (s.setPc w) fun p => p = .pc := by
  intro p hp; cases p <;> simp_all [Part.same]

theorem State.skipIf_onlyChanges (c : Bool) : s.onlyChanges (s.skipIf c) fun p => p = .pc := by
  intro p hp; cases p <;> simp_all [Part.same]

theorem State.setWithFlag_onlyChanges (x : Reg) (b f : Byte) :
    s.onlyChanges (s.setWithFlag x b f) fun p => p = .v x ∨ p = .v VF := by
  intro p hp; cases p <;> simp_all [Part.same]
  rename_i k
  rw [if_neg (fun h => hp.2 (Fin.ext h.symm)), if_neg (fun h => hp.1 (Fin.ext h.symm))]

/-! ### Fetching -/

/-- What a Step fetches is the word at PC, and it passes the fetch bound. -/
theorem State.fetchWord_of_fetches (w : Word) (h : s.fetches w) :
    s.runState = .running ∧ s.canFetch = true ∧ s.fetchWord = w := by
  obtain ⟨hr, hp, hw⟩ := h
  refine ⟨hr, by simp [State.canFetch]; omega, BitVec.eq_of_toNat_eq ?_⟩
  rw [hw, State.fetchWord, wordOfBytes, BitVec.toNat_append, ← Nat.shiftLeft_add_eq_or_of_lt (BitVec.isLt _),
    Nat.shiftLeft_eq]

/-! ### Instructions that can end in more than one way -/

theorem exec_ret_cases (h : exec .ret s = .next t) :
    (∃ p q, t = { s with sp := p, pc := q }) ∨ t = s.raise .stackUnderflow := by
  simp only [exec, execRet, State.pop] at h
  split at h <;> cases h
  · rename_i hh; split at hh <;> cases hh; exact .inl ⟨_, _, rfl⟩
  · exact .inr rfl

theorem exec_call_cases (nnn : BitVec 12) (h : exec (.call nnn) s = .next t) :
    (∃ a p q, t = { s with stack := a, sp := p, pc := q }) ∨ t = s.raise .stackOverflow := by
  simp only [exec, execCall, State.push] at h
  split at h <;> cases h
  · rename_i hh; split at hh <;> cases hh; exact .inl ⟨_, _, _, rfl⟩
  · exact .inr rfl

theorem exec_drw_cases (x y : Reg) (n : BitVec 4) (h : exec (.drw x y n) s = .next t) :
    (∃ rows, t = s.drawSprite x y rows) ∨ t = s.raise .dataAddressOutOfBounds := by
  simp only [exec, execDrw] at h
  rcases s.load_cases (s.effAddr 0) n.toNat with e | e <;> rw [e] at h <;> cases h
  · exact .inl ⟨_, rfl⟩
  · exact .inr rfl

theorem exec_ldRegs_cases (x : Reg) (h : exec (.ldRegs x) s = .next t) :
    (∃ bytes, t = s.setRegBlock x bytes) ∨ t = s.raise .dataAddressOutOfBounds := by
  simp only [exec, execLdRegs] at h
  rcases s.load_cases (s.effAddr 0) (x.val + 1) with e | e <;> rw [e] at h <;> cases h
  · exact .inl ⟨_, rfl⟩
  · exact .inr rfl

theorem exec_ldB_cases (x : Reg) (h : exec (.ldB x) s = .next t) :
    (∃ m, t = { s with mem := m }) ∨ t = s.raise .writeProtected ∨ t = s.raise .dataAddressOutOfBounds := by
  cases h
  rcases storeThroughI_cases s (bcdDigits (s.reg x)) with ⟨_, e⟩ | e | e <;> rw [e]
  · exact .inl ⟨_, rfl⟩
  · exact .inr (.inl rfl)
  · exact .inr (.inr rfl)

theorem exec_stRegs_cases (x : Reg) (h : exec (.stRegs x) s = .next t) :
    (∃ m, t = { s with mem := m }) ∨ t = s.raise .writeProtected ∨ t = s.raise .dataAddressOutOfBounds := by
  cases h
  rcases storeThroughI_cases s (s.regBlock x) with ⟨_, e⟩ | e | e <;> rw [e]
  · exact .inl ⟨_, rfl⟩
  · exact .inr (.inl rfl)
  · exact .inr (.inr rfl)

theorem exec_ldVxK_cases (x : Reg) (h : exec (.ldVxK x) s = .next t) :
    (∃ b, t = s.setV x b) ∨ t = { s with pc := s.pc - 2, waitX := x, runState := .awaitingKey } := by
  simp only [exec, execLdVxK] at h
  split at h <;> cases h
  · exact .inl ⟨_, rfl⟩
  · exact .inr rfl

theorem exec_rnd_cases (x : Reg) (nn : Byte) (h : exec (.rnd x nn) s = .next t) :
    ∃ b r k, t = { s.setV x b with randIn := r, randIx := k } := by
  simp only [exec, execRnd] at h; cases h
  unfold State.takeRand
  split <;> exact ⟨_, _, _, rfl⟩

end Sys2Proof.Machine
end

