-- ==== Sys2Proof/Laws/PerInstr.lean ====
section
/-! SUPPORT. Statements made once for every instruction. EncodedInRow: the word the encoder builds for an instruction matches
the mask and pattern of that instruction's own row of the opcode map (30_encoding R84). -/

namespace Sys2Proof.Laws.EncodedInRow

/-- The encoder's word selects the row of the instruction's mnemonic (R84). -/
def Statement (i : Instr) : Prop := ∃ row ∈ opcodeTable, row.mnemonic = i.mnemonic ∧ row.matches (encode i) = true

/-! ### Masks of the formats -/

theorem mask_xyn (c : BitVec 4) (x y : Reg) (n : BitVec 4) : asmXyn c x y n &&& 0xF00F = asmXyn c 0 0 n := by
  apply BitVec.eq_of_getLsbD_eq
  intro k hk
  interval_cases k <;> simp only [asmXyn, BitVec.getLsbD_and, BitVec.getLsbD_append] <;> simp [regBits]

theorem mask_xyn_class (c : BitVec 4) (x y : Reg) (n : BitVec 4) : asmXyn c x y n &&& 0xF000 = asmXyn c 0 0 0 := by
  apply BitVec.eq_of_getLsbD_eq
  intro k hk
  interval_cases k <;> simp only [asmXyn, BitVec.getLsbD_and, BitVec.getLsbD_append] <;> simp [regBits]

theorem mask_xnn_class (c : BitVec 4) (x : Reg) (nn : Byte) : asmXnn c x nn &&& 0xF000 = asmXnn c 0 0 := by
  apply BitVec.eq_of_getLsbD_eq
  intro k hk
  interval_cases k <;> simp only [asmXnn, BitVec.getLsbD_and, BitVec.getLsbD_append] <;> simp [regBits]

theorem mask_xnn (c : BitVec 4) (x : Reg) (nn : Byte) : asmXnn c x nn &&& 0xF0FF = asmXnn c 0 nn := by
  apply BitVec.eq_of_getLsbD_eq
  intro k hk
  interval_cases k <;> simp only [asmXnn, BitVec.getLsbD_and, BitVec.getLsbD_append] <;> simp [regBits]

theorem mask_nnn_class (c : BitVec 4) (nnn : BitVec 12) : asmNnn c nnn &&& 0xF000 = asmNnn c 0 := by
  apply BitVec.eq_of_getLsbD_eq
  intro k hk
  interval_cases k <;> simp only [asmNnn, BitVec.getLsbD_and, BitVec.getLsbD_append] <;> simp

/-! ### The instructions -/

theorem cls : Statement .cls :=
  ⟨opcodeTable[0], List.getElem_mem _, rfl, rfl⟩

theorem ret : Statement .ret :=
  ⟨opcodeTable[1], List.getElem_mem _, rfl, rfl⟩

theorem jp (nnn : BitVec 12) : Statement (.jp nnn) :=
  ⟨opcodeTable[2], List.getElem_mem _, rfl, beq_iff_eq.mpr ((mask_nnn_class 0x1 nnn).trans rfl)⟩

theorem call (nnn : BitVec 12) : Statement (.call nnn) :=
  ⟨opcodeTable[3], List.getElem_mem _, rfl, beq_iff_eq.mpr ((mask_nnn_class 0x2 nnn).trans rfl)⟩

theorem seImm (x : Reg) (nn : Byte) : Statement (.seImm x nn) :=
  ⟨opcodeTable[4], List.getElem_mem _, rfl, beq_iff_eq.mpr ((mask_xnn_class 0x3 x nn).trans rfl)⟩

theorem sneImm (x : Reg) (nn : Byte) : Statement (.sneImm x nn) :=
  ⟨opcodeTable[5], List.getElem_mem _, rfl, beq_iff_eq.mpr ((mask_xnn_class 0x4 x nn).trans rfl)⟩

theorem seReg (x y : Reg) : Statement (.seReg x y) :=
  ⟨opcodeTable[6], List.getElem_mem _, rfl, beq_iff_eq.mpr ((mask_xyn 0x5 x y 0x0).trans rfl)⟩

theorem sneReg (x y : Reg) : Statement (.sneReg x y) :=
  ⟨opcodeTable[7], List.getElem_mem _, rfl, beq_iff_eq.mpr ((mask_xyn 0x9 x y 0x0).trans rfl)⟩

theorem ldImm (x : Reg) (nn : Byte) : Statement (.ldImm x nn) :=
  ⟨opcodeTable[8], List.getElem_mem _, rfl, beq_iff_eq.mpr ((mask_xnn_class 0x6 x nn).trans rfl)⟩

theorem addImm (x : Reg) (nn : Byte) : Statement (.addImm x nn) :=
  ⟨opcodeTable[9], List.getElem_mem _, rfl, beq_iff_eq.mpr ((mask_xnn_class 0x7 x nn).trans rfl)⟩

theorem ldReg (x y : Reg) : Statement (.ldReg x y) :=
  ⟨opcodeTable[10], List.getElem_mem _, rfl, beq_iff_eq.mpr ((mask_xyn 0x8 x y 0x0).trans rfl)⟩

theorem or (x y : Reg) : Statement (.or x y) :=
  ⟨opcodeTable[11], List.getElem_mem _, rfl, beq_iff_eq.mpr ((mask_xyn 0x8 x y 0x1).trans rfl)⟩

theorem and (x y : Reg) : Statement (.and x y) :=
  ⟨opcodeTable[12], List.getElem_mem _, rfl, beq_iff_eq.mpr ((mask_xyn 0x8 x y 0x2).trans rfl)⟩

theorem xor (x y : Reg) : Statement (.xor x y) :=
  ⟨opcodeTable[13], List.getElem_mem _, rfl, beq_iff_eq.mpr ((mask_xyn 0x8 x y 0x3).trans rfl)⟩

theorem addReg (x y : Reg) : Statement (.addReg x y) :=
  ⟨opcodeTable[14], List.getElem_mem _, rfl, beq_iff_eq.mpr ((mask_xyn 0x8 x y 0x4).trans rfl)⟩

theorem sub (x y : Reg) : Statement (.sub x y) :=
  ⟨opcodeTable[15], List.getElem_mem _, rfl, beq_iff_eq.mpr ((mask_xyn 0x8 x y 0x5).trans rfl)⟩

theorem shr (x y : Reg) : Statement (.shr x y) :=
  ⟨opcodeTable[16], List.getElem_mem _, rfl, beq_iff_eq.mpr ((mask_xyn 0x8 x y 0x6).trans rfl)⟩

theorem subn (x y : Reg) : Statement (.subn x y) :=
  ⟨opcodeTable[17], List.getElem_mem _, rfl, beq_iff_eq.mpr ((mask_xyn 0x8 x y 0x7).trans rfl)⟩

theorem shl (x y : Reg) : Statement (.shl x y) :=
  ⟨opcodeTable[18], List.getElem_mem _, rfl, beq_iff_eq.mpr ((mask_xyn 0x8 x y 0xE).trans rfl)⟩

theorem ldI (nnn : BitVec 12) : Statement (.ldI nnn) :=
  ⟨opcodeTable[19], List.getElem_mem _, rfl, beq_iff_eq.mpr ((mask_nnn_class 0xA nnn).trans rfl)⟩

theorem jpV0 (nnn : BitVec 12) : Statement (.jpV0 nnn) :=
  ⟨opcodeTable[20], List.getElem_mem _, rfl, beq_iff_eq.mpr ((mask_nnn_class 0xB nnn).trans rfl)⟩

theorem rnd (x : Reg) (nn : Byte) : Statement (.rnd x nn) :=
  ⟨opcodeTable[21], List.getElem_mem _, rfl, beq_iff_eq.mpr ((mask_xnn_class 0xC x nn).trans rfl)⟩

theorem drw (x y : Reg) (n : BitVec 4) : Statement (.drw x y n) :=
  ⟨opcodeTable[22], List.getElem_mem _, rfl, beq_iff_eq.mpr ((mask_xyn_class 0xD x y n).trans rfl)⟩

theorem skp (x : Reg) : Statement (.skp x) :=
  ⟨opcodeTable[23], List.getElem_mem _, rfl, beq_iff_eq.mpr ((mask_xnn 0xE x 0x9E).trans rfl)⟩

theorem sknp (x : Reg) : Statement (.sknp x) :=
  ⟨opcodeTable[24], List.getElem_mem _, rfl, beq_iff_eq.mpr ((mask_xnn 0xE x 0xA1).trans rfl)⟩

theorem ldVxDt (x : Reg) : Statement (.ldVxDt x) :=
  ⟨opcodeTable[25], List.getElem_mem _, rfl, beq_iff_eq.mpr ((mask_xnn 0xF x 0x07).trans rfl)⟩

theorem ldVxK (x : Reg) : Statement (.ldVxK x) :=
  ⟨opcodeTable[26], List.getElem_mem _, rfl, beq_iff_eq.mpr ((mask_xnn 0xF x 0x0A).trans rfl)⟩

theorem ldDtVx (x : Reg) : Statement (.ldDtVx x) :=
  ⟨opcodeTable[27], List.getElem_mem _, rfl, beq_iff_eq.mpr ((mask_xnn 0xF x 0x15).trans rfl)⟩

theorem ldStVx (x : Reg) : Statement (.ldStVx x) :=
  ⟨opcodeTable[28], List.getElem_mem _, rfl, beq_iff_eq.mpr ((mask_xnn 0xF x 0x18).trans rfl)⟩

theorem addI (x : Reg) : Statement (.addI x) :=
  ⟨opcodeTable[29], List.getElem_mem _, rfl, beq_iff_eq.mpr ((mask_xnn 0xF x 0x1E).trans rfl)⟩

theorem ldF (x : Reg) : Statement (.ldF x) :=
  ⟨opcodeTable[30], List.getElem_mem _, rfl, beq_iff_eq.mpr ((mask_xnn 0xF x 0x29).trans rfl)⟩

theorem ldB (x : Reg) : Statement (.ldB x) :=
  ⟨opcodeTable[31], List.getElem_mem _, rfl, beq_iff_eq.mpr ((mask_xnn 0xF x 0x33).trans rfl)⟩

theorem stRegs (x : Reg) : Statement (.stRegs x) :=
  ⟨opcodeTable[32], List.getElem_mem _, rfl, beq_iff_eq.mpr ((mask_xnn 0xF x 0x55).trans rfl)⟩

theorem ldRegs (x : Reg) : Statement (.ldRegs x) :=
  ⟨opcodeTable[33], List.getElem_mem _, rfl, beq_iff_eq.mpr ((mask_xnn 0xF x 0x65).trans rfl)⟩

end Sys2Proof.Laws.EncodedInRow
end

