-- ==== Sys2Proof/Tests/Slice0.lean ====
section
/-! SUPPORT. Tests on fixed values, each taken from spec/95_test_vectors.md (named in the test's comment) or worked out by
hand from the rule, and the witnesses: for every statement with hypotheses, a concrete state and operands that meet them. -/

namespace Sys2Proof.Tests

open Sys2Proof Sys2Proof.Machine

/-! ### Helpers -/

/-- The outcome is a next state of which `p` holds. -/
def gives (o : Host.Outcome State Fault Refusal) (p : State → Bool) : Bool :=
  match o with
  | .next t => p t
  | _ => false

/-- The reset state with bytes placed from 0x200. -/
def prog (bytes : List Byte) : State := { State.reset with mem := Memory.writeBytes [] 0x200 bytes }

/-- V1, V2 and VF set. -/
def State.with12F (s : State) (a b f : Byte) : State := ((s.setV 1 a).setV 2 b).setV 15 f

/-- V1, V2 and VF read. -/
def is12F (t : State) (a b f : Byte) : Bool := t.v[1] == a && t.v[2] == b && t.v[15] == f

/-- HALTED with the cause, PC at P + 2 = 0x202. -/
def haltedAt202 (t : State) (c : Fault) : Bool := t.runState == .halted && t.faultCause == some c && t.pc == 0x202

/-- The lit cells, each as its (row, column). -/
def lit (t : State) : List (Nat × Nat) :=
  t.disp.toList.zipIdx.flatMap fun row => (row.1.toList.zipIdx.filter (·.1)).map fun cell => (row.2, cell.2)

/-! ### Decoding: words written out from the patterns of R84 (B1) -/

theorem test_decode_class0 :
    decode 0b0000000011100000#16 = .ok .cls ∧ decode 0x0FF0 = .ok .cls ∧
    decode 0b0000000011101110#16 = .ok .ret ∧ decode 0x000E = .ok .ret := by decide

theorem test_decode_nnn :
    decode 0b0001111111111111#16 = .ok (.jp 0xFFF) ∧ decode 0b0010101010111100#16 = .ok (.call 0xABC) ∧
    decode 0b1010000100100011#16 = .ok (.ldI 0x123) ∧ decode 0b1011001100000000#16 = .ok (.jpV0 0x300) := by decide

theorem test_decode_xnn :
    decode 0b0011101001111111#16 = .ok (.seImm 0xA 0x7F) ∧ decode 0b0100111111111111#16 = .ok (.sneImm 0xF 0xFF) ∧
    decode 0b0110000000000101#16 = .ok (.ldImm 0 5) ∧ decode 0b0111000000000011#16 = .ok (.addImm 0 3) ∧
    decode 0b1100001100001111#16 = .ok (.rnd 3 0x0F) := by decide

theorem test_decode_xy :
    decode 0b0101000100100000#16 = .ok (.seReg 1 2) ∧ decode 0b1001000100100000#16 = .ok (.sneReg 1 2) ∧
    decode 0x8AB0 = .ok (.ldReg 10 11) ∧ decode 0x8AB1 = .ok (.or 10 11) ∧ decode 0x8AB2 = .ok (.and 10 11) ∧
    decode 0x8AB3 = .ok (.xor 10 11) ∧ decode 0b1000101010110100#16 = .ok (.addReg 10 11) := by decide

theorem test_decode_xy_flags :
    decode 0b1000101010110101#16 = .ok (.sub 10 11) ∧ decode 0x8AB6 = .ok (.shr 10 11) ∧
    decode 0x8AB7 = .ok (.subn 10 11) ∧ decode 0x8ABE = .ok (.shl 10 11) ∧
    decode 0b1101000100100101#16 = .ok (.drw 1 2 5) ∧ decode 0xD120 = .ok (.drw 1 2 0) := by decide

theorem test_decode_x :
    decode 0b1110001010011110#16 = .ok (.skp 2) ∧ decode 0b1110001010100001#16 = .ok (.sknp 2) ∧
    decode 0xF107 = .ok (.ldVxDt 1) ∧ decode 0xF10A = .ok (.ldVxK 1) ∧ decode 0xF115 = .ok (.ldDtVx 1) ∧
    decode 0xF118 = .ok (.ldStVx 1) := by decide

theorem test_decode_x_memory :
    decode 0xF11E = .ok (.addI 1) ∧ decode 0xF129 = .ok (.ldF 1) ∧ decode 0b1111000100110011#16 = .ok (.ldB 1) ∧
    decode 0xF155 = .ok (.stRegs 1) ∧ decode 0xF165 = .ok (.ldRegs 1) := by decide

theorem test_decode_unknown :
    decode 0x00E1 = .error (.unknownClass0 1) ∧ decode 0x512F = .error (.unknownClass5 15) ∧
    decode 0x812F = .error (.unknownClass8 15) ∧ decode 0x9121 = .error (.unknownClass9 1) ∧
    decode 0xE29F = .error (.unknownClassE 0x9F) ∧ decode 0xF175 = .error (.unknownClassF 0x75) := by decide

/-- R52 (B1, fetch vectors): 0x12, 0x34 is the word 0x1234; one byte is no instruction. -/
theorem test_decodeBytes :
    decodeBytes [0x12, 0x34, 0x56] = .ok (.jp 0x234, [0x56]) ∧ decodeBytes [0x12] = .error .truncated ∧
    decodeTableWord 16 0x60AB = some (.ldImm 0 0xAB) ∧ decodeTableWord 16 0x5121 = none := by decide

/-! ### WellFormed: what is refused, and by which transition -/

/-- R83 "every value is legal": the extreme operands are accepted, equal registers and VF included. -/
theorem test_wellFormed_accepts :
    (Instr.drw 15 15 15).wellFormed = true ∧ (Instr.ldImm 15 0xFF).wellFormed = true ∧
    romWellFormed [] = true ∧ keyWellFormed 15 = true := by decide

/-- R220: an image one byte too long is ill formed; one of 3584 bytes is not. -/
theorem test_romWellFormed_refuses :
    romWellFormed (List.replicate 3585 0) = false ∧ romWellFormed (List.replicate 3584 0) = true := by
  rw [romWellFormed, romWellFormed, List.length_replicate, List.length_replicate]; decide

theorem test_reset_refuses_rom (s : State) (g : Vector Byte 80) (c : ShiftSrc) :
    apply (.reset g c (List.replicate 3585 0)) s = .refused .romTooLarge := by
  rw [apply, test_romWellFormed_refuses.1]; rfl

/-- R214: "A `k` outside 0..15 is not a legal argument." -/
theorem test_key_refused :
    keyWellFormed 16 = false ∧ apply (.setKey 16 true) State.reset = .refused .keyOutOfRange := ⟨rfl, rfl⟩

/-! ### Control transfer (B2) -/

theorem test_jp : gives (step (prog [0x12, 0x34])) (fun t => t.pc == 0x234) = true := by decide

theorem test_call :
    gives (exec (.call 0x210) ((prog []).setPc 0x206))
      (fun t => t.stack[0] == 0x206 && t.sp == 1 && t.pc == 0x210) = true := by decide

theorem test_call_full :
    gives (exec (.call 0x210) { (prog []).setPc 0x202 with sp := 16 })
      (fun t => haltedAt202 t .stackOverflow && t.sp == 16) = true := by decide

theorem test_ret :
    gives (exec .ret { prog [] with sp := 1, stack := State.reset.stack.set 0 0x206, pc := 0x302 })
      (fun t => t.sp == 0 && t.pc == 0x206 && t.stack[0] == 0x206) = true := by decide

theorem test_ret_empty : gives (exec .ret ((prog []).setPc 0x202)) (haltedAt202 · .stackUnderflow) = true := by decide

theorem test_seImm :
    gives (step ((prog [0x33, 0x2A]).setV 3 0x2A)) (fun t => t.pc == 0x204) = true ∧
    gives (step ((prog [0x33, 0x2A]).setV 3 0x2B)) (fun t => t.pc == 0x202) = true := by decide

theorem test_sneImm :
    gives (step ((prog [0x43, 0x2A]).setV 3 0x2A)) (fun t => t.pc == 0x202) = true ∧
    gives (step ((prog [0x43, 0x2A]).setV 3 0x00)) (fun t => t.pc == 0x204) = true := by decide

theorem test_seReg :
    gives (step (State.with12F (prog [0x51, 0x20]) 7 7 0)) (fun t => t.pc == 0x204) = true ∧
    gives (step (State.with12F (prog [0x51, 0x20]) 7 8 0)) (fun t => t.pc == 0x202) = true := by decide

theorem test_sneReg :
    gives (step (State.with12F (prog [0x91, 0x20]) 7 8 0)) (fun t => t.pc == 0x204) = true ∧
    gives (step (State.with12F (prog [0x91, 0x20]) 7 7 0)) (fun t => t.pc == 0x202) = true := by decide

theorem test_jpV0 : gives (step ((prog [0xBF, 0xFF]).setV 0 0xFF)) (fun t => t.pc == 0x10FE) = true := by decide

/-! ### Load, immediate add, ALU (B3) -/

theorem test_ldImm : gives (step (prog [0x6F, 0xAB])) (fun t => t.v[15] == 0xAB && t.pc == 0x202) = true := by decide

theorem test_addImm :
    gives (exec (.addImm 1 1) (State.with12F (prog []) 0xFF 0 0)) (is12F · 0 0 0) = true ∧
    gives (exec (.addImm 15 1) (State.with12F (prog []) 0 0 0xFF)) (is12F · 0 0 0) = true := by decide

theorem test_ldReg : gives (exec (.ldReg 1 2) (State.with12F (prog []) 0 0x7C 1)) (is12F · 0x7C 0x7C 1) = true := by decide

theorem test_or : gives (exec (.or 1 2) (State.with12F (prog []) 0xF0 0x0F 1)) (is12F · 0xFF 0x0F 1) = true := by decide

theorem test_and : gives (exec (.and 1 2) (State.with12F (prog []) 0xF3 0x3F 1)) (is12F · 0x33 0x3F 1) = true := by decide

theorem test_xor :
    gives (exec (.xor 1 2) (State.with12F (prog []) 0xFF 0x0F 1)) (is12F · 0xF0 0x0F 1) = true ∧
    gives (exec (.xor 15 2) (State.with12F (prog []) 0 0x0F 0xFF)) (is12F · 0 0x0F 0xF0) = true := by decide

theorem test_addReg :
    gives (exec (.addReg 1 2) (State.with12F (prog []) 0xC8 0x64 0)) (is12F · 0x2C 0x64 1) = true ∧
    gives (exec (.addReg 15 1) (State.with12F (prog []) 0x20 0 0x10)) (is12F · 0x20 0 0) = true := by decide

/-- The old VF is the operand, whatever is written first. -/
theorem test_addReg_aliases :
    gives (exec (.addReg 1 15) (State.with12F (prog []) 0xFF 0 1)) (is12F · 0 0 1) = true ∧
    gives (exec (.addReg 15 15) (State.with12F (prog []) 0 0 0x80)) (is12F · 0 0 1) = true := by decide

theorem test_sub :
    gives (exec (.sub 1 2) (State.with12F (prog []) 3 5 1)) (is12F · 0xFE 5 0) = true ∧
    gives (exec (.sub 1 2) (State.with12F (prog []) 5 5 0)) (is12F · 0 5 1) = true := by decide

theorem test_subn :
    gives (exec (.subn 1 2) (State.with12F (prog []) 3 0x0A 0)) (is12F · 7 0x0A 1) = true ∧
    gives (exec (.subn 1 2) (State.with12F (prog []) 0x0A 3 1)) (is12F · 0xF9 3 0) = true := by decide

theorem test_shr :
    is12F (shrWith .x 1 2 (State.with12F (prog []) 5 8 0)) 2 8 1 = true ∧
    is12F (shrWith .y 1 2 (State.with12F (prog []) 5 8 0)) 4 8 0 = true := by decide

theorem test_shl :
    is12F (shlWith .x 1 2 (State.with12F (prog []) 0x81 0x40 0)) 2 0x40 1 = true ∧
    is12F (shlWith .y 1 2 (State.with12F (prog []) 0x81 0x40 0)) 0x80 0x40 0 = true := by decide

/-! ### Index register and memory (B4) -/

theorem test_ldI : gives (step (prog [0xAF, 0xFF])) (fun t => t.i == 0x0FFF) = true := by decide

theorem test_addI :
    gives (exec (.addI 2) { State.with12F (prog []) 0 1 0 with i := 0xFFFF }) (fun t => t.i == 0 && t.v[15] == 0) = true ∧
    gives (exec (.addI 2) { State.with12F (prog []) 0 1 0 with i := 0x0FFF }) (fun t => t.i == 0x1000) = true := by decide

theorem test_ldF :
    gives (exec (.ldF 0) ((prog []).setV 0 0x0F)) (fun t => t.i == 0x4B) = true ∧
    gives (exec (.ldF 0) ((prog []).setV 0 0xFF)) (fun t => t.i == 0x4FB) = true := by decide

theorem test_ldB :
    gives (exec (.ldB 0) { (prog []).setV 0 0xEA with i := 0x300 })
      (fun t => t.mem.readBytes 0x2FF 5 == [0, 2, 3, 4, 0] && t.i == 0x300) = true := by decide

theorem test_ldB_faults :
    gives (exec (.ldB 0) { (prog []).setV 0 0x64 with i := 0xFFE, pc := 0x202 })
      (fun t => haltedAt202 t .dataAddressOutOfBounds && t.mem == []) = true ∧
    gives (exec (.ldB 0) { (prog []).setV 0 0x64 with i := 0x1FE, pc := 0x202 })
      (fun t => haltedAt202 t .writeProtected && t.mem == []) = true := by decide

theorem test_stRegs :
    gives (exec (.stRegs 2) { State.with12F ((prog []).setV 0 0x11) 0x22 0x33 0xFF with i := 0x400 })
      (fun t => t.mem.readBytes 0x400 4 == [0x11, 0x22, 0x33, 0]) = true := by decide

theorem test_stRegs_faults :
    gives (exec (.stRegs 1) { prog [] with i := 0xFFF, pc := 0x202 }) (haltedAt202 · .dataAddressOutOfBounds) = true ∧
    gives (exec (.stRegs 1) { prog [] with i := 0x1FF, pc := 0x202 }) (haltedAt202 · .writeProtected) = true := by decide

/-- `I = 0`, default glyphs: V0 to V4 hold the glyph of digit 0, V5 is kept. -/
theorem test_ldRegs :
    gives (exec (.ldRegs 4) ((prog []).setV 5 0x77))
      (fun t => t.v.toList.take 6 == [0xF0, 0x90, 0x90, 0x90, 0xF0, 0x77]) = true := by decide

theorem test_ldRegs_fault :
    gives (exec (.ldRegs 1) { State.with12F (prog []) 2 0 0 with i := 0xFFF, pc := 0x202 })
      (fun t => haltedAt202 t .dataAddressOutOfBounds && t.v[1] == 2) = true := by decide

/-! ### Display (B5) -/

/-- V-CLS1. -/
theorem test_cls :
    gives (exec .cls { (prog []).setV 15 1 with disp := State.reset.disp.toggle (0, 0) })
      (fun t => lit t == [] && t.v[15] == 1) = true := by decide

/-- V-DRW1. -/
theorem test_drw_wraps :
    gives (exec (.drw 0 1 2) { ((prog []).setV 0 62).setV 1 31 with i := 0x20C, mem := Memory.writeBytes [] 0x20C [0xC3, 0x81] })
      (fun t => lit t == [(0, 5), (0, 62), (31, 4), (31, 5), (31, 62), (31, 63)] && t.v[15] == 0) = true := by decide

/-- V-DRW9: one set pixel hit, one cell turned on. -/
theorem test_drw_collides :
    gives (exec (.drw 0 1 1)
      { prog [] with i := 0x20C, mem := Memory.writeBytes [] 0x20C [0xC0], disp := State.reset.disp.toggle (0, 0) })
      (fun t => lit t == [(0, 1)] && t.v[15] == 1) = true := by decide

/-- V-DRW15: the old VF is the column. -/
theorem test_drw_reads_vf_first :
    gives (exec (.drw 15 0 1)
      { ((prog []).setV 0 5).setV 15 1 with i := 0x20C, mem := Memory.writeBytes [] 0x20C [0x80] })
      (fun t => lit t == [(5, 1)] && t.v[15] == 0) = true := by decide

/-- V-DRW11 and V-DRW13. -/
theorem test_drw_bounds :
    gives (exec (.drw 1 2 0) { (prog []).setV 15 1 with i := 0xFFFF }) (fun t => t.v[15] == 0 && t.runState == .running) = true ∧
    gives (exec (.drw 1 2 2) { (prog []).setV 15 7 with i := 0xFFF, pc := 0x202 })
      (fun t => haltedAt202 t .dataAddressOutOfBounds && t.v[15] == 7) = true := by decide

/-! ### Random, keypad, timers (B6) -/

theorem test_rnd :
    gives (stepWith 0xA7 (prog [0xC3, 0x0F])) (fun t => t.v[3] == 0x07 && t.randIn == [] && t.randIx == 0) = true := by decide

/-- With no byte supplied the next free byte is read, and its number moves on. -/
theorem test_rnd_free : gives (exec (.rnd 3 0) (prog [])) (fun t => t.randIx == 1) = true := by decide

/-- 0x1A selects key 0xA. -/
theorem test_skp :
    gives (step (((prog [0xE2, 0x9E]).setV 2 0x1A).setKey 0xA true)) (fun t => t.pc == 0x204) = true ∧
    gives (step ((prog [0xE2, 0x9E]).setV 2 5)) (fun t => t.pc == 0x202) = true := by decide

theorem test_sknp :
    gives (step ((prog [0xE2, 0xA1]).setV 2 5)) (fun t => t.pc == 0x204) = true ∧
    gives (step (((prog [0xE2, 0xA1]).setV 2 5).setKey 5 true)) (fun t => t.pc == 0x202) = true := by decide

theorem test_ldVxDt : gives (exec (.ldVxDt 4) ((prog []).setDt 0x2A)) (fun t => t.v[4] == 0x2A && t.dt == 0x2A) = true := by
  decide

/-- The least of two held keys. -/
theorem test_ldVxK_held :
    gives (step (((prog [0xF1, 0x0A]).setKey 3 true).setKey 10 true))
      (fun t => t.v[1] == 3 && t.pc == 0x202 && t.runState == .running) = true := by decide

theorem test_ldVxK_waits :
    gives (step (prog [0xFF, 0x0A]))
      (fun t => t.pc == 0x200 && t.runState == .awaitingKey && t.waitX == 15) = true ∧
    stepResult (prog [0xFF, 0x0A]) = .waiting := by decide

/-- The Step after a key is pressed stores it and advances; nothing is fetched. -/
theorem test_await_resumes :
    gives (step ({ prog [0xFF, 0x0A] with runState := .awaitingKey, waitX := 15 }.setKey 7 true))
      (fun t => t.v[15] == 7 && t.pc == 0x202 && t.runState == .running) = true := by decide

theorem test_ldDtVx : gives (exec (.ldDtVx 1) ((prog []).setV 1 0x3C)) (fun t => t.dt == 0x3C) = true := by decide

theorem test_ldStVx :
    gives (exec (.ldStVx 1) ((prog []).setV 1 2)) (fun t => t.st == 2 && t.soundActive) = true ∧
    gives (exec (.ldStVx 1) ((prog []).setSt 5)) (fun t => t.st == 0 && !t.soundActive) = true := by decide

/-! ### Step, Tick, Reset -/

/-- B1: the word 0x5121 is reported and skipped. -/
theorem test_unknown :
    gives (step (prog [0x51, 0x21])) (fun t => t.pc == 0x202 && t.runState == .running && t.faultCause == none) = true ∧
    stepResult (prog [0x51, 0x21]) = .unknownOpcode 0x200 0x5121 := by decide

/-- R53: an odd PC is fetched from as it stands. -/
theorem test_odd_pc : gives (step ((prog [0, 0x61, 0x2A]).setPc 0x201)) (fun t => t.v[1] == 0x2A && t.pc == 0x203) = true := by
  decide

/-- R201: 4095 faults and 4094 does not. -/
theorem test_fetch_bound :
    gives (step ((prog []).setPc 4095)) (fun t => t.runState == .halted && t.faultCause == some .pcOutOfBounds && t.pc == 4095)
      = true ∧
    gives (step ((prog []).setPc 4094)) (fun t => t.runState == .running && t.pc == 4096) = true := by decide

theorem test_tick :
    gives (apply .tick { prog [] with dt := 255, st := 0 }) (fun t => t.dt == 254 && t.st == 0) = true := by decide

/-- R230 with the default glyph table and no program gives the memory of `State.reset`. -/
theorem test_reset_memory : resetMemory ⟨Config.defaultGlyphs.toArray, rfl⟩ [] = State.reset.mem := by decide

/-- S8, the first Step of the document's own scenario; and the codes of R29 and R30. -/
theorem test_reset_then_step (g : Vector Byte 80) :
    RunState.code .halted = 2 ∧ faultCode (some .writeProtected) = 5 ∧
    (State.reset.resetTo g .y [0x60, 0x05]).shiftSrc = .y := ⟨rfl, rfl, rfl⟩

/-- The word the host places is the word the next step runs. -/
theorem test_withFetchWord :
    gives (step (State.reset.withFetchWord 16 0x6005)) (fun t => t.v[0] == 5 && t.pc == 0x202) = true ∧
    gives (step ((State.reset.raise .stackOverflow).withFetchWord 16 0x7103)) (fun t => t.v[1] == 3) = true := by decide

/-- R238: `JP 0x200` at 0x200 is the conventional end of a program, a safe state. -/
theorem test_idle : (prog [0x12, 0x00]).idle ∧ (prog [0x12, 0x00]).safe := ⟨⟨rfl, 0x200, rfl, rfl⟩, RunState.noConfusion⟩

/-! ### Witnesses: states and operands that meet the hypotheses of each statement, at the ends of their ranges -/

theorem next_of_gives {o : Host.Outcome State Fault Refusal} {p : State → Bool} (h : gives o p = true) :
    ∃ t, o = .next t ∧ p t = true := by
  cases o with
  | next t => exact ⟨t, rfl, h⟩
  | fault _ => cases h
  | refused _ => cases h

/-- LD_VX_K suspended at 0x200 with `x = 1`, a key held or none. -/
def awaiting (keys : Vector Bool 16) : State :=
  { prog [0xF1, 0x0A] with runState := .awaitingKey, waitX := 1, key := keys }

/-- No key, key 15 alone, keys 0 and 15. -/
def noKey : Vector Bool 16 := State.reset.key

def key15 : Vector Bool 16 := noKey.set 15 true

def key0and15 : Vector Bool 16 := key15.set 0 true

/-- A state as deep in a run as can be: the stack full, I at 0xFF0, PC at 0x202. -/
def busy : State :=
  { prog [0x22, 0x00] with sp := 16, stack := Vector.replicate 16 0x202, pc := 0x202, i := 0xFF0, dt := 9, st := 1 }

/-- A display with one lit cell, and the sprite of V-DRW9 at I. -/
def spriteOn (d : Display) : State := { prog [] with i := 0x20C, mem := Memory.writeBytes [] 0x20C [0xC0], disp := d }

theorem unknown_5121 (i : Instr) : decode 0x5121 ≠ .ok i := fun h =>
  Except.noConfusion rfl rfl (heq_of_eq (show (Except.error (.unknownClass5 1) : Except DecodeError Instr) = .ok i from h))

theorem witness_DecodeOfEncodeIsIdentity : (Instr.drw 15 15 15).wellFormed = true ∧ Instr.cls.wellFormed = true := by decide

theorem witness_DecodeFollowsOpcodeMap :
    (∃ row ∈ opcodeTable, (0x8AB4 : Word) &&& row.mask = row.pattern) ∧
    ∀ row ∈ opcodeTable, (0x5121 : Word) &&& row.mask ≠ row.pattern := by decide

theorem witness_DecodedWordReencodes :
    decode 0x0120 = .ok .cls ∧ decode 0x0ABE = .ok .ret ∧ decode 0xFF65 = .ok (.ldRegs 15) := by decide

theorem witness_StepRunsDecodedInstruction :
    ((prog [0x60, 0x05]).fetches 0x6005 ∧ decode 0x6005 = .ok (.ldImm 0 5)) ∧
    (((prog []).setPc 4094).fetches 0x0000 ∧ decode 0x0000 = .ok .cls) :=
  ⟨⟨⟨rfl, by decide, by decide⟩, rfl⟩, ⟨⟨rfl, by decide, by decide⟩, rfl⟩⟩

theorem witness_UnknownOpcodeIsReported : (prog [0x51, 0x21]).fetches 0x5121 ∧ ∀ i, decode 0x5121 ≠ .ok i :=
  ⟨⟨rfl, by decide, by decide⟩, unknown_5121⟩

theorem witness_FetchBeyondMemoryHalts :
    ((prog []).setPc 4095).runState = .running ∧ 4094 < ((prog []).setPc 4095).pc.toNat := by decide

theorem witness_HaltedUntilReset :
    (busy.raise .stackOverflow).runState = .halted ∧
    ∃ t, (∀ g c rom, Transition.tick ≠ .reset g c rom) ∧ apply .tick (busy.raise .stackOverflow) = .next t :=
  ⟨rfl, _, fun _ _ _ h => (Transition.noConfusion h), rfl⟩

theorem witness_AwaitingStepPollsKeys :
    (∀ ks, (awaiting ks).runState = .awaitingKey) ∧
    ((awaiting key15).key[(15 : Fin 16)] = true ∧ ∀ j : Fin 16, j < 15 → (awaiting key15).key[j] = false) ∧
    ((awaiting key0and15).key[(0 : Fin 16)] = true ∧ ∀ j : Fin 16, j < 0 → (awaiting key0and15).key[j] = false) ∧
    ∀ k : Fin 16, (awaiting noKey).key[k] = false := ⟨fun _ => rfl, by decide, by decide, by decide⟩

theorem busy_inv : busy.Inv :=
  ⟨by decide, by unfold State.pcInRange; decide, by unfold State.stackInRange; decide, by unfold State.causeMatches; decide,
    fun h => by cases h⟩

theorem awaiting_inv : (awaiting key15).Inv :=
  ⟨by decide, by unfold State.pcInRange; decide, by unfold State.stackInRange; decide, by unfold State.causeMatches; decide,
    fun _ => ⟨rfl, rfl⟩⟩

theorem witness_StepKeepsInvariant :
    (busy.Inv ∧ ∃ t, step busy = .next t) ∧ ((awaiting key15).Inv ∧ ∃ t, step (awaiting key15) = .next t) :=
  ⟨⟨busy_inv, _, rfl⟩, ⟨awaiting_inv, _, rfl⟩⟩

theorem witness_ScheduleKeepsInvariant :
    (awaiting key15).Inv ∧ ∃ t, applyAll [.setKey 0 true, .tick, .step 0xA7] (awaiting key15) = .next t :=
  ⟨awaiting_inv, _, rfl⟩

/-- A Step that stores. -/
theorem witness_LowMemoryIsImmutable :
    (∀ g c rom, Transition.step 0 ≠ .reset g c rom) ∧ (0x1FF : Nat) < 0x200 ∧
    ∃ t, apply (.step 0) { prog [0xF0, 0x55] with i := 0x200 } = .next t :=
  ⟨fun _ _ _ h => (Transition.noConfusion h), by decide, _, rfl⟩

/-- The same two bytes written in either order. -/
theorem witness_CanonicalMemoriesAreEqual :
    Memory.wf (Memory.write (Memory.write [] 0x300 1) 0x200 2) = true ∧
    Memory.wf (Memory.write (Memory.write [] 0x200 2) 0x300 1) = true ∧
    ∀ a, Memory.read (Memory.write (Memory.write [] 0x300 1) 0x200 2) a =
      Memory.read (Memory.write (Memory.write [] 0x200 2) 0x300 1) a := ⟨by decide, by decide, fun _ => rfl⟩

theorem witness_LocationsHoldLastWrite :
    (∃ t, busy.memWrite 0x200 7 = .ok t) ∧ (∃ t, busy.memWrite 0xFFF 7 = .ok t) ∧
    (List.replicate 3584 (7 : Byte)).length ≤ 3584 ∧ (4095 : Nat) ≤ 4095 :=
  ⟨⟨_, rfl⟩, ⟨_, rfl⟩, by rw [List.length_replicate], by decide⟩

/-- The four ranges of addresses, at their ends. -/
theorem witness_MemoryPrimitivesCheckAddress :
    busy.memRead 4095 = .ok 0 ∧ busy.memRead 4096 = .error .dataAddressOutOfBounds ∧
    (∀ v, busy.memWrite 0x1FF v = .error .writeProtected) ∧ ∃ t, busy.memWrite 0x200 1 = .ok t :=
  ⟨rfl, rfl, fun _ => rfl, _, rfl⟩

/-- Both stores at the last I they allow, their digits, and words half and wholly stored. -/
theorem witness_FetchSeesStores :
    (0x200 ≤ busy.effAddr 0 ∧ busy.effAddr 15 ≤ 4095 ∧ (0xFEF : Word).toNat ≤ 4094 ∧ (0xFFE : Word).toNat ≤ 4094) ∧
    (0x200 ≤ (busy.setI 0xFFD).effAddr 0 ∧ (busy.setI 0xFFD).effAddr 2 ≤ 4095) ∧
    ((2 : Byte).toNat = (busy.setV 1 0xEA).v[1].toNat / 100 ∧ (3 : Byte).toNat = (busy.setV 1 0xEA).v[1].toNat / 10 % 10 ∧
      (4 : Byte).toNat = (busy.setV 1 0xEA).v[1].toNat % 10) := by decide

/-- LD_B at 0x201: the word at 0x200 is half code, half hundreds. -/
theorem test_fetch_sees_half_store :
    gives (exec (.ldB 1) ((prog [0x60, 0x05]).setI 0x201 |>.setV 1 0xEA)) (fun t => (t.setPc 0x200).fetchWord == 0x6002) = true := by
  decide

theorem witness_JumpSetsPc :
    busy.runState = .running ∧ (prog [0x12, 0x00]).fetches 0x1200 ∧ decode 0x1200 = .ok (.jp 0x200) ∧
    (0x200 : BitVec 12).toNat = (prog [0x12, 0x00]).pc.toNat := ⟨rfl, ⟨rfl, by decide, by decide⟩, rfl, rfl⟩

theorem witness_CallPushesReturnAddress :
    ({ busy with sp := 15 } : State).sp.val < 16 ∧ busy.sp.val = 16 ∧
    (List.replicate 16 (0x200 : BitVec 12)).length = 16 ∧ State.reset.sp.val = 0 := by decide

theorem witness_ReturnPopsPc :
    0 < busy.sp.val ∧ State.reset.sp.val = 0 ∧
    (({ busy with sp := 1, stack := busy.stack.set 0 4096 } : State).stack[0] = 4096 ∧ busy.runState = .running) ∧
    ∃ t, exec (.call 0x200) { busy with sp := 15 } = .next t := ⟨by decide, rfl, by decide, _, rfl⟩

theorem witness_OffsetJumpAddsV0 :
    4094 < (0xFFE : BitVec 12).toNat + (busy.setV 0 1).v[0].toNat ∧ (busy.setV 0 1).runState = .running := by decide

/-- For AddRegisterSetsCarry, SubtractSetsNotBorrow, ReverseSubtractSetsNotBorrow, ShiftsSetShiftedOutBit and
DrawTwiceRestoresDisplay: a destination that is not VF. -/
theorem witness_otherThanVF : (0 : Reg) ≠ VF ∧ (14 : Reg) ≠ VF := by decide

theorem witness_ShiftsSetShiftedOutBit (s : State) (x y : Reg) :
    s.v[x] = (if ({ s with shiftSrc := .x } : State).shiftSrc = .x then s.v[x] else s.v[y]) ∧
    s.v[y] = (if ({ s with shiftSrc := .y } : State).shiftSrc = .x then s.v[x] else s.v[y]) := ⟨rfl, rfl⟩

/-- An instruction of every kind that changes VF, as a flag and as a destination. -/
theorem witness_FlagIsWrittenOnlyByItsWriters :
    [Instr.addReg 1 2, .sub 1 2, .subn 1 2, .ldImm VF 1, .addImm VF 1, .ldReg VF 1, .or VF 1, .xor VF 1, .ldVxDt VF].all
      (fun i => gives (exec i { State.with12F (prog []) 0xFF 0xFF 0 with dt := 9 }) fun t => t.v[15] != 0) = true ∧
    [Instr.and VF 1, .rnd VF 0, .ldVxK VF, .drw 0 1 0, .ldRegs VF].all
      (fun i => gives (exec i { State.with12F (prog []) 0 0 7 with key := key0and15, i := 0x300, randIn := [0xFF] }) fun t => t.v[15] != 7)
      = true ∧
    is12F (shrWith .x 1 2 (State.with12F busy 1 1 0)) 0 1 1 = true ∧
    is12F (shlWith .x 1 2 (State.with12F busy 0x80 1 0)) 0 1 1 = true := by decide

theorem witness_StoreBcdWritesDigits :
    (0x200 ≤ (busy.setI 0x200).effAddr 0 ∧ (busy.setI 0x200).effAddr 2 ≤ 4095) ∧
    (0x200 ≤ (busy.setI 0xFFD).effAddr 0 ∧ (busy.setI 0xFFD).effAddr 2 ≤ 4095) := by decide

theorem witness_StoreRegistersWritesBlock :
    (0x200 ≤ (busy.setI 0x200).effAddr 0 ∧ (busy.setI 0x200).effAddr 0 ≤ 4095) ∧
    (0x200 ≤ busy.effAddr 0 ∧ busy.effAddr 15 ≤ 4095) := by decide

/-- The two faults exclude each other where their ranges come nearest. -/
theorem witness_StoresOutsideProgramMemoryFault :
    (busy.setI 0x1FF).effAddr 0 < 0x200 ∧ ¬ 4095 < (busy.setI 0x1FF).effAddr 15 ∧
    4095 < (busy.setI 0xFFE).effAddr 2 ∧ 4095 < (busy.setI 0xFF1).effAddr 15 := by decide

theorem witness_LoadRegistersReadsBlock : busy.effAddr 15 ≤ 4095 ∧ (busy.setI 0).effAddr 0 ≤ 4095 := by decide

theorem witness_LoadsBeyondMemoryFault :
    4095 < (busy.setI 0xFF1).effAddr 15 ∧
    ((1 : BitVec 4) ≠ 0 ∧ 4095 < (busy.setI 0x1000).effAddr ((1 : BitVec 4).toNat - 1)) := by decide

theorem witness_ClearScreenClearsAll :
    (prog []).fetches 0x0000 ∧
    (([0x60, 0x05] : List Byte).length ≤ 3584 ∧ 0x200 + ([0x60, 0x05] : List Byte).length ≤ (0xFFE : Word).toNat ∧
      (0xFFE : Word).toNat ≤ 4094) ∧
    (0x050 ≤ (0x050 : Word).toNat ∧ (0x1FE : Word).toNat ≤ 0x1FE) := ⟨⟨rfl, by decide, by decide⟩, by decide, by decide⟩

/-- Heights 0 and 15 at the last I they allow; a cell the sprite of V-DRW9 hits lit, one it does not reach, and a display on
which it hits nothing. Also for DrawTwiceRestoresDisplay and DrawChangesAsManyCellsAsBits. -/
theorem witness_DrawTogglesSpriteCells :
    ((0 : BitVec 4) = 0 ∨ (busy.setI 0xFFFF).effAddr ((0 : BitVec 4).toNat - 1) ≤ 4095) ∧
    ((15 : BitVec 4) = 0 ∨ (busy.setI 0xFF1).effAddr ((15 : BitVec 4).toNat - 1) ≤ 4095) ∧
    (let s := spriteOn (State.reset.disp.toggle (0, 0)); spriteLit s 0 1 1 (0, 0) ∧ Display.cell s.disp (0, 0) = true) ∧
    ¬ spriteLit (spriteOn Display.clear) 0 1 1 (5, 0) ∧
    ¬ ∃ c, spriteLit (spriteOn Display.clear) 0 1 1 c ∧ Display.cell (spriteOn Display.clear).disp c = true := by
  refine ⟨by decide, by decide, ⟨⟨0, by decide, 0, by decide, by decide, by decide, by decide⟩, by decide⟩, ?_, ?_⟩
  · rintro ⟨row, hr, col, _, _, hc, _⟩
    obtain rfl : row = 0 := by simpa using hr
    revert hc; decide
  · rintro ⟨c, _, h⟩
    have : Display.cell (spriteOn Display.clear).disp c = false := Display.cell_clear c
    rw [this] at h; cases h

theorem witness_RandomAndMasksRand :
    ({ prog [] with randIn := [0xA7, 1] } : State).randIn = 0xA7 :: [1] ∧ (prog []).randIn = [] ∧
    (prog [0xC3, 0x0F]).fetches 0xC30F ∧ decode 0xC30F = .ok (.rnd 3 0x0F) :=
  ⟨rfl, rfl, ⟨rfl, by decide, by decide⟩, rfl⟩

theorem witness_OnlyRandomReadsRand : ∀ x nn, Instr.ldImm 0 1 ≠ .rnd x nn := fun _ _ h => Instr.noConfusion h

theorem witness_KeySkipsTestSelectedCell :
    (0xA : Fin 16).val = (busy.setV 2 0x1A).v[2].toNat % 16 ∧ (15 : Fin 16).val = (busy.setV 2 0xFF).v[2].toNat % 16 := by
  decide

theorem witness_WaitForKeyStoresOrSuspends :
    ((awaiting key15).key[(15 : Fin 16)] = true ∧ ∀ j : Fin 16, j < 15 → (awaiting key15).key[j] = false) ∧
    ∀ k : Fin 16, busy.key[k] = false := ⟨witness_AwaitingStepPollsKeys.2.1, by decide⟩

theorem witness_SetKeyWritesOneCell : State.reset.key[(15 : Fin 16)] = false ∧ (15 : Nat) < 16 := by decide

/-- Tick silences a timer at 1; LD_ST_VX starts a tone; two states with one ST. -/
theorem witness_SoundFollowsSoundTimer :
    gives (apply .tick busy) (fun t => t.outputs.soundActive != busy.outputs.soundActive) = true ∧
    gives (apply (.step 0) ((prog [0xF1, 0x18]).setV 1 2))
      (fun t => t.outputs.soundActive != (prog []).outputs.soundActive) = true ∧
    (busy.setPc 0).st = busy.st := by decide

/-- Also for ProgramImageIsPlaced: the longest image, and one byte more. -/
theorem witness_ResetSetsEveryPiece :
    (List.replicate 3584 (7 : Byte)).length ≤ 3584 ∧ 3584 < (List.replicate 3585 (7 : Byte)).length := by
  rw [List.length_replicate, List.length_replicate]; decide

theorem witness_ProgramImageIsPlaced :
    (∃ t, apply .tick busy = .next t) ∧ ∃ t, apply (.setKey 15 true) busy = .next t := ⟨⟨_, rfl⟩, ⟨_, rfl⟩⟩

/-- An empty image, whose first word is CLS, and one whose first word is unknown. -/
theorem witness_ExecutionBeginsAtLoadOffset :
    ((0x0000 : Word).toNat = (([] : List Byte).getD 0 0).toNat * 256 + (([] : List Byte).getD 1 0).toNat ∧
      decode 0x0000 = .ok .cls) ∧
    ((0x5121 : Word).toNat = (([0x51, 0x21] : List Byte).getD 0 0).toNat * 256 + (([0x51, 0x21] : List Byte).getD 1 0).toNat ∧
      ∀ i, decode 0x5121 ≠ .ok i) := ⟨⟨rfl, rfl⟩, ⟨rfl, unknown_5121⟩⟩

/-- For every piece of state, an instruction that changes it. -/
theorem witness_OnlyItsWritersChangeState :
    gives (exec (.ldI 1) busy) (fun t => t.i != busy.i) = true ∧ gives (exec (.jp 1) busy) (fun t => t.pc != busy.pc) = true ∧
    gives (exec (.call 1) (prog [])) (fun t => t.stack != (prog []).stack && t.sp != (prog []).sp) = true ∧
    gives (exec (.ldDtVx 0) busy) (fun t => t.dt != busy.dt) = true ∧
    gives (exec (.ldStVx 0) busy) (fun t => t.st != busy.st) = true ∧
    gives (exec (.drw 0 1 1) (spriteOn Display.clear)) (fun t => lit t == [(0, 0), (0, 1)]) = true ∧
    gives (exec (.stRegs 0) (busy.setV 0 1)) (fun t => t.mem != busy.mem) = true := by decide

theorem witness_OnlyItsWritersChangeState_rest :
    gives (exec (.ldImm 14 1) busy) (fun t => t.v[14] != busy.v[14]) = true ∧
    gives (exec (.ldRegs 15) (busy.setV 14 1)) (fun t => t.v[14] != 1) = true ∧
    gives (exec (.call 1) busy) (fun t => t.runState != busy.runState && t.faultCause != busy.faultCause) = true ∧
    gives (exec (.ldVxK 1) busy) (fun t => t.runState == .awaitingKey && t.waitX != busy.waitX) = true ∧
    gives (exec (.rnd 1 0) busy) (fun t => t.randIx != busy.randIx) = true := by decide

end Sys2Proof.Tests
end

section
/-! PROOFS. Memory access at the level of the host and of single bytes (20_memory.md R55, R56, R59, R64): what a repeated
write leaves, when MemRead and MemWrite succeed and with what, and memory after each of the host's transitions. -/

namespace Sys2Proof.Machine

/-! ### A repeated write -/

/-- The second insertion finds the cell the first one left, in a list in any order. -/
theorem Memory.insert_insert_same (m : Memory) (a : Nat) (v : Byte) :
    Memory.insert a v (Memory.insert a v m) = Memory.insert a v m := by
  induction m with
  | nil => simp [Memory.insert]
  | cons c rest ih =>
    obtain ⟨b, u⟩ := c
    by_cases hlt : a < b
    · simp [Memory.insert, hlt]
    · by_cases heq : a = b
      · simp [Memory.insert, heq]
      · simp [Memory.insert, hlt, heq, ih]

theorem Memory.erase_erase_same (m : Memory) (a : Nat) : Memory.erase a (Memory.erase a m) = Memory.erase a m := by
  induction m with
  | nil => rfl
  | cons c rest ih =>
    obtain ⟨b, u⟩ := c
    by_cases heq : a = b
    · simpa [Memory.erase, heq] using ih
    · simp [Memory.erase, heq, ih]

@[simp] theorem Memory.write_write_same (m : Memory) (a : Nat) (v : Byte) : (m.write a v).write a v = m.write a v := by
  by_cases ha : a < Config.memSize
  · by_cases hv : v = Memory.resetByte a
    · simp only [Memory.write, if_pos ha, if_pos hv, Memory.erase_erase_same]
    · simp only [Memory.write, if_pos ha, if_neg hv, Memory.insert_insert_same]
  · simp only [Memory.write, if_neg ha]

/-! ### MemRead and MemWrite of one byte -/

theorem State.memRead_of_le (s : State) {a : Nat} (h : a ≤ 4095) : s.memRead a = .ok (s.mem.read a) := by
  rw [State.memRead, s.load_of_ok a 1 (.inr (by omega))]
  rfl

theorem State.memRead_of_gt (s : State) {a : Nat} (h : 4095 < a) : s.memRead a = .error .dataAddressOutOfBounds := by
  rw [State.memRead, s.load_of_out a 1 (by decide) (by omega)]
  rfl

/-- MemRead depends on nothing but the byte at the address. -/
theorem State.memRead_congr {s t : State} {a : Nat} (h : t.mem.read a = s.mem.read a) : t.memRead a = s.memRead a := by
  by_cases ha : a ≤ 4095
  · rw [t.memRead_of_le ha, s.memRead_of_le ha, h]
  · rw [t.memRead_of_gt (by omega), s.memRead_of_gt (by omega)]

theorem State.memWrite_of_inRange (s : State) {a : Nat} (v : Byte) (hlo : 0x200 ≤ a) (hhi : a ≤ 4095) :
    s.memWrite a v = .ok { s with mem := s.mem.write a v } :=
  s.store_of_ok a [v] (.inr ⟨hlo, by simp; omega⟩)

theorem State.memWrite_of_low (s : State) {a : Nat} (v : Byte) (h : a < 0x200) :
    s.memWrite a v = .error .writeProtected :=
  s.store_of_low a [v] (by simp) h

theorem State.memWrite_of_gt (s : State) {a : Nat} (v : Byte) (h : 4095 < a) :
    s.memWrite a v = .error .dataAddressOutOfBounds :=
  s.store_of_out a [v] (by simp) (by omega) (by simp; omega)

/-- MemWrite is accepted exactly in the writable range, and then changes the byte at `a` alone. -/
theorem State.memWrite_eq_ok_iff {s t : State} {a : Nat} {v : Byte} :
    s.memWrite a v = .ok t ↔ 0x200 ≤ a ∧ a ≤ 4095 ∧ t = { s with mem := s.mem.write a v } := by
  by_cases hlo : a < 0x200
  · rw [s.memWrite_of_low v hlo]
    exact ⟨nofun, fun h => absurd h.1 (by omega)⟩
  · by_cases hhi : 4095 < a
    · rw [s.memWrite_of_gt v hhi]
      exact ⟨nofun, fun h => absurd h.2.1 (by omega)⟩
    · rw [s.memWrite_of_inRange v (by omega) (by omega), Except.ok.injEq]
      exact ⟨fun h => ⟨by omega, by omega, h.symm⟩, fun h => h.2.2.symm⟩

/-! ### Memory after Reset -/

theorem Memory.resetByte_of_ge {a : Nat} (h : 80 ≤ a) : Memory.resetByte a = 0 :=
  List.getD_eq_default _ _ h

/-- R34, R230: the session's glyphs, then zeros up to the program, the program, and zeros after it. -/
theorem resetMemory_read (g : Vector Byte 80) (rom : List Byte) (hrom : rom.length ≤ 3584) (a : Nat) :
    (resetMemory g rom).read a = if h : a < 80 then g[a] else if 0x200 ≤ a then rom.getD (a - 0x200) 0 else 0 := by
  have hglyphs : (Memory.writeBytes [] 0 g.toList).read a = if h : a < 80 then g[a] else 0 := by
    by_cases h : a < 80
    · have hin := Memory.read_writeBytes_inside g.toList [] 0 a (by simpa using h) (by simp)
      simpa [h] using hin
    · rw [Memory.read_writeBytes_outside g.toList [] 0 a (.inr (by simp; omega)), dif_neg h]
      exact Memory.resetByte_of_ge (by omega)
  rw [resetMemory, Memory.read_writeBytes rom _ 0x200 a (by omega), hglyphs]
  by_cases h : a < 80
  · rw [if_neg (by omega), dif_pos h, dif_pos h]
  · rw [dif_neg h, dif_neg h]

/-- R64: the image stands verbatim from the load offset on. -/
theorem resetMemory_read_rom (g : Vector Byte 80) (rom : List Byte) (hrom : rom.length ≤ 3584) (k : Nat)
    (hk : k < rom.length) : (resetMemory g rom).read (0x200 + k) = rom[k] :=
  Memory.read_writeBytes_inside rom _ 0x200 k hk (by omega)

/-! ### The host's transitions -/

theorem apply_reset_of_fits (s : State) (g : Vector Byte 80) (c : ShiftSrc) {rom : List Byte} (h : rom.length ≤ 3584) :
    apply (.reset g c rom) s = .next (s.resetTo g c rom) := by
  simp [apply, romWellFormed, Config.romMax, h]

theorem apply_reset_of_tooLarge (s : State) (g : Vector Byte 80) (c : ShiftSrc) {rom : List Byte}
    (h : 3584 < rom.length) : apply (.reset g c rom) s = .refused .romTooLarge := by
  simp [apply, romWellFormed, Config.romMax, h]

/-- SetKey is accepted for the keys there are (R214), and then writes one cell of KEY. -/
theorem apply_setKey_eq_next_iff {s t : State} {k : Nat} {b : Bool} :
    apply (.setKey k b) s = .next t ↔ k < 16 ∧ t = s.setKey (Fin.ofNat 16 k) b := by
  by_cases h : k < 16 <;> simp [apply, keyWellFormed, h, eq_comm]

/-! ### The obligations -/

/-- Settles O17: MemWrite succeeds only by writing the byte of memory at `a`, so R59 is read-after-write, idempotence of
the write, and the byte-by-byte memory after Reset. -/
theorem locationsHoldLastWrite : Obligations.LocationsHoldLastWrite := by
  unfold Obligations.LocationsHoldLastWrite
  constructor
  · intro s t a v hwrite
    obtain ⟨hlo, hhi, rfl⟩ := State.memWrite_eq_ok_iff.mp hwrite
    refine ⟨?_, ?_, fun b hb => ?_⟩
    · rw [State.memRead_of_le _ hhi, Memory.read_write _ _ _ _ (by omega), if_pos rfl]
    · rw [State.memWrite_of_inRange _ v hlo hhi, Memory.write_write_same]
    · exact State.memRead_congr (Memory.read_write_ne s.mem a b v hb)
  · intro s g c rom a hrom ha
    rw [State.memRead_of_le _ ha]
    exact congrArg _ (resetMemory_read g rom hrom a)

/-- Settles O55: Reset takes an image that fits and places it by one run of stores, and refuses a longer one; neither Tick
nor SetKey touches memory. -/
theorem programImageIsPlaced : Obligations.ProgramImageIsPlaced := by
  unfold Obligations.ProgramImageIsPlaced
  refine ⟨fun s g c rom hrom => ?_, fun s g c rom hrom => apply_reset_of_tooLarge s g c hrom, fun s t k b h => ?_⟩
  · exact ⟨_, apply_reset_of_fits s g c hrom, rfl, resetMemory_read_rom g rom hrom⟩
  · rcases h with htick | hkey
    · cases htick
      exact s.tick_mem
    · obtain ⟨_, rfl⟩ := apply_setKey_eq_next_iff.mp hkey
      exact s.setKey_mem _ b

end Sys2Proof.Machine
end

section
/-! PROOFS. Control transfer (40_control_transfer.md): the decoder on the classes of the family, what a Step does once
its word is known, one equation for each jump, CALL and RET, and the two skips said once for all four instructions. -/

namespace Sys2Proof.Machine

variable (s : State)

/-! ### Decoding by class -/

theorem decode_ret {w : Word} (hc : fieldClass w = 0x0) (hn : fieldN w = 0xE) : decode w = .ok .ret := by
  simp [decode, decodeClass0, hc, hn]

theorem decode_jp {w : Word} (h : fieldClass w = 0x1) : decode w = .ok (.jp (fieldNnn w)) := by
  simp [decode, h]

theorem decode_call {w : Word} (h : fieldClass w = 0x2) : decode w = .ok (.call (fieldNnn w)) := by
  simp [decode, h]

theorem decode_seImm {w : Word} (h : fieldClass w = 0x3) : decode w = .ok (.seImm (fieldX w) (fieldNn w)) := by
  simp [decode, h]

theorem decode_sneImm {w : Word} (h : fieldClass w = 0x4) : decode w = .ok (.sneImm (fieldX w) (fieldNn w)) := by
  simp [decode, h]

theorem decode_seReg {w : Word} (hc : fieldClass w = 0x5) (hn : fieldN w = 0x0) :
    decode w = .ok (.seReg (fieldX w) (fieldY w)) := by
  simp [decode, hc, hn]

theorem decode_sneReg {w : Word} (hc : fieldClass w = 0x9) (hn : fieldN w = 0x0) :
    decode w = .ok (.sneReg (fieldX w) (fieldY w)) := by
  simp [decode, hc, hn]

theorem decode_jpV0 {w : Word} (h : fieldClass w = 0xB) : decode w = .ok (.jpV0 (fieldNnn w)) := by
  simp [decode, h]

/-- A row of R84 keyed by the class alone. -/
theorem encodes_of_class {p : Word} {build : Word → Instr}
    (h : ∀ {w : Word}, fieldClass w = fieldClass p → decode w = .ok (build w)) : encodes 0xF000 p build :=
  fun _ hw => h (fieldClass_of_mask hw)

/-- A row of R84 keyed by the class and the low nibble. -/
theorem encodes_of_class_nibble {p : Word} {build : Word → Instr}
    (h : ∀ {w : Word}, fieldClass w = fieldClass p → fieldN w = fieldN p → decode w = .ok (build w)) :
    encodes 0xF00F p build :=
  fun _ hw => h (fieldClass_fieldN_of_mask hw).1 (fieldClass_fieldN_of_mask hw).2

/-! ### The Step -/

theorem step_of_fetches {w : Word} {i : Instr} (hw : s.fetches w) (hi : decode w = .ok i) :
    step s = exec i s.advancePc := by
  obtain ⟨hrun, hfetch, hword⟩ := s.fetchWord_of_fetches w hw
  simp [step, stepOnce, runStep, hrun, hfetch, hword, hi]

/-- R201: the fetch checks PC before anything is read. -/
theorem step_of_pc_gt (hrun : s.runState = .running) (hpc : 4094 < s.pc.toNat) :
    step s = .next (s.raise .pcOutOfBounds) := by
  have hfetch : s.canFetch = false := by simp [State.canFetch, Config.maxFetchPc]; omega
  simp [step, stepOnce, runStep, hrun, hfetch]

theorem step_faults_of_pc_gt (hrun : s.runState = .running) (hpc : 4094 < s.pc.toNat) :
    ∃ u, step s = .next u ∧ s.faultsInto u .pcOutOfBounds :=
  ⟨_, step_of_pc_gt s hrun hpc, s.raise_faultsInto .pcOutOfBounds⟩

/-! ### Jumps -/

theorem exec_jp (nnn : BitVec 12) : exec (.jp nnn) s = .next (s.setPc (zextNnn nnn)) := rfl

theorem exec_jpV0 (nnn : BitVec 12) : exec (.jpV0 nnn) s = .next (s.setPc (s.offsetTarget nnn)) := rfl

/-- The base advance is lost to a jump. -/
theorem State.advancePc_setPc (w : Word) : s.advancePc.setPc w = s.setPc w := rfl

theorem State.setPc_pc_self : s.setPc s.pc = s := rfl

/-- R107: the sum of a 12-bit and an 8-bit number never reaches 2^16, so the 16-bit addition does not wrap. -/
theorem State.offsetTarget_toNat (nnn : BitVec 12) : (s.offsetTarget nnn).toNat = nnn.toNat + s.v[0].toNat := by
  have hv : ((s.reg 0).setWidth 16).toNat = s.v[0].toNat := by
    rw [BitVec.toNat_setWidth_of_le (by decide)]; rfl
  rw [State.offsetTarget, BitVec.toNat_add, zextNnn_toNat, hv]
  exact Nat.mod_eq_of_lt (by have := nnn.isLt; have := s.v[0].isLt; omega)

/-! ### CALL and RET -/

/-- The state a CALL with room on the stack leaves (R102). -/
def State.callTo (s : State) (nnn : BitVec 12) (h : s.sp.val < 16) : State :=
  { s with stack := s.stack.set s.sp.val s.pc, sp := ⟨s.sp.val + 1, by omega⟩, pc := zextNnn nnn }

/-- The state a RET with an entry on the stack leaves (R100). -/
def State.returned (s : State) (h : 0 < s.sp.val) : State :=
  { s with sp := ⟨s.sp.val - 1, by omega⟩, pc := s.stack[s.sp.val - 1] }

theorem exec_call_of_room (nnn : BitVec 12) (h : s.sp.val < 16) : exec (.call nnn) s = .next (s.callTo nnn h) := by
  simp only [exec, execCall, s.push_of_room s.pc h]; rfl

theorem exec_call_of_full (nnn : BitVec 12) (h : ¬ s.sp.val < 16) :
    exec (.call nnn) s = .next (s.raise .stackOverflow) := by
  simp only [exec, execCall, s.push_full s.pc h]

theorem exec_ret_of_entry (h : 0 < s.sp.val) : exec .ret s = .next (s.returned h) := by
  simp only [exec, execRet, s.pop_of_entry h]; rfl

theorem exec_ret_of_empty (h : ¬ 0 < s.sp.val) : exec .ret s = .next (s.raise .stackUnderflow) := by
  simp only [exec, execRet, s.pop_empty h]

section
variable (nnn : BitVec 12) (h : s.sp.val < 16)

theorem State.callTo_sp : (s.callTo nnn h).sp.val = s.sp.val + 1 := rfl

theorem State.callTo_runState : (s.callTo nnn h).runState = s.runState := rfl

theorem State.callTo_pc_toNat : (s.callTo nnn h).pc.toNat = nnn.toNat := zextNnn_toNat nnn

theorem State.callTo_stack_top : (s.callTo nnn h).stack[s.sp.val] = s.pc := Vector.getElem_set_self _

theorem State.callTo_onlyChanges :
    s.onlyChanges (s.callTo nnn h) fun p => p = .stack ⟨s.sp.val, h⟩ ∨ p = .sp ∨ p = .pc := by
  intro p hp
  cases p with
  | stack k =>
    have hne : s.sp.val ≠ k.val := fun e => hp (.inl (congrArg Part.stack (Fin.ext e.symm)))
    exact Vector.getElem_set_ne h k.isLt hne
  | sp => exact absurd (.inr (.inl rfl)) hp
  | pc => exact absurd (.inr (.inr rfl)) hp
  | _ => rfl

/-- R100, R102: a RET right after a CALL undoes it, PC and SP alike. -/
theorem exec_ret_after_call :
    ∃ u, exec .ret (s.callTo nnn h).advancePc = .next u ∧ u.pc = s.pc ∧ u.sp = s.sp :=
  ⟨_, exec_ret_of_entry _ (Nat.succ_pos _), s.callTo_stack_top nnn h, rfl⟩

end

theorem State.returned_onlyChanges (h : 0 < s.sp.val) :
    s.onlyChanges (s.returned h) fun p => p = .pc ∨ p = .sp := by
  intro p hp
  cases p with
  | pc => exact absurd (.inl rfl) hp
  | sp => exact absurd (.inr rfl) hp
  | _ => rfl

/-- R102: calls in succession go on while the stack has room, each taking one entry. -/
theorem execSeq_calls_of_room (targets : List (BitVec 12)) (s : State) (h : s.sp.val + targets.length ≤ 16) :
    ∃ t, execSeq (targets.map .call) s = .next t ∧ t.runState = s.runState ∧
      t.sp.val = s.sp.val + targets.length := by
  induction targets generalizing s with
  | nil => exact ⟨s, rfl, rfl, rfl⟩
  | cons nnn rest ih =>
    rw [List.length_cons] at h ⊢
    have hroom : s.advancePc.sp.val < 16 := by rw [s.advancePc_sp]; omega
    have hsp : (s.advancePc.callTo nnn hroom).sp.val = s.sp.val + 1 := s.advancePc.callTo_sp nnn hroom
    obtain ⟨t, hseq, hrun, htop⟩ := ih (s.advancePc.callTo nnn hroom) (by omega)
    refine ⟨t, ?_, hrun, by omega⟩
    rw [List.map_cons, execSeq, exec_call_of_room _ nnn hroom]
    exact hseq

/-! ### Skips -/

section
variable (x y : Reg) (nn : Byte)

theorem exec_seImm : exec (.seImm x nn) s = .next (s.skipIf (s.reg x == nn)) := rfl

theorem exec_sneImm : exec (.sneImm x nn) s = .next (s.skipIf (s.reg x != nn)) := rfl

theorem exec_seReg : exec (.seReg x y) s = .next (s.skipIf (s.reg x == s.reg y)) := rfl

theorem exec_sneReg : exec (.sneReg x y) s = .next (s.skipIf (s.reg x != s.reg y)) := rfl

end

/-- R108 (c): a skip moves PC by one further 2 when its condition holds, and is otherwise without effect. -/
theorem State.skipIf_spec {c : Bool} {P : Prop} [Decidable P] (h : c = true ↔ P) :
    (s.skipIf c).pc = (if P then s.pc + 2 else s.pc) ∧ s.onlyChanges (s.skipIf c) fun p => p = .pc := by
  refine ⟨?_, s.skipIf_onlyChanges c⟩
  simp only [s.skipIf_pc, h]

theorem byte_beq_iff_toNat (a b : Byte) : (a == b) = true ↔ a.toNat = b.toNat := by
  rw [beq_iff_eq, BitVec.toNat_inj]

theorem byte_bne_iff_toNat (a b : Byte) : (a != b) = true ↔ a.toNat ≠ b.toNat := by
  rw [bne_iff_ne, ne_eq, ne_eq, BitVec.toNat_inj]

/-! ### The obligations -/

/-- Settles O20: JP is one write of PC, and the jump to its own address writes back the PC the Step advanced from. -/
theorem jumpSetsPc : Obligations.JumpSetsPc := by
  unfold Obligations.JumpSetsPc
  refine ⟨encodes_of_class decode_jp, fun nnn s => ?_, fun s w nnn hw hi hself => ?_⟩
  · refine ⟨_, exec_jp s nnn, zextNnn_toNat nnn, s.setPc_onlyChanges _, ?_⟩
    rintro rfl hrun
    exact step_faults_of_pc_gt _ hrun (by decide : 4094 < (zextNnn 0xFFF).toNat)
  · have htarget : zextNnn nnn = s.pc := BitVec.eq_of_toNat_eq ((zextNnn_toNat nnn).trans hself)
    rw [step_of_fetches s hw hi, exec_jp, s.advancePc_setPc, htarget, s.setPc_pc_self]

/-- Settles O21: with room CALL is `State.callTo`, without it a fault entry; sixteen calls by induction on the list of
targets, SP counting them. -/
theorem callPushesReturnAddress : Obligations.CallPushesReturnAddress := by
  unfold Obligations.CallPushesReturnAddress
  refine ⟨encodes_of_class decode_call, fun nnn s h => ?_, fun nnn s hfull => ?_, fun targets nnn s hlen hsp => ?_⟩
  · exact ⟨_, exec_call_of_room s nnn h, s.callTo_stack_top nnn h, s.callTo_sp nnn h, s.callTo_pc_toNat nnn h,
      s.callTo_onlyChanges nnn h, exec_ret_after_call s nnn h⟩
  · exact ⟨_, exec_call_of_full s nnn (by omega), s.raise_faultsInto _⟩
  · obtain ⟨t, hseq, hrun, htop⟩ := execSeq_calls_of_room targets s (by omega)
    have hfull : ¬ t.advancePc.sp.val < 16 := by rw [t.advancePc_sp]; omega
    exact ⟨t, _, hseq, hrun, by omega, exec_call_of_full _ nnn hfull, State.raise_faultsInto _ _⟩

/-- Settles O22: with an entry RET is `State.returned`, without one a fault entry; after a CALL the entry is the pushed PC. -/
theorem returnPopsPc : Obligations.ReturnPopsPc := by
  unfold Obligations.ReturnPopsPc
  refine ⟨encodes_of_class_nibble decode_ret, fun s h => ?_, fun s hempty => ?_, fun nnn s t h hcall => ?_⟩
  · refine ⟨_, exec_ret_of_entry s h, rfl, rfl, s.returned_onlyChanges h, fun htop hrun => ?_⟩
    have hpc : (s.returned h).pc = 4096 := htop
    exact step_faults_of_pc_gt _ hrun (by rw [hpc]; decide)
  · exact ⟨_, exec_ret_of_empty s (by omega), s.raise_faultsInto _⟩
  · rw [exec_call_of_room s nnn h] at hcall
    cases hcall
    obtain ⟨u, hret, hpc, _⟩ := exec_ret_after_call s nnn h
    exact ⟨u, hret, hpc⟩

/-- Settles O23: both are a `skipIf` on the comparison of the register with the immediate as unsigned numbers. -/
theorem skipOnImmediate : Obligations.SkipOnImmediate := by
  unfold Obligations.SkipOnImmediate
  refine ⟨encodes_of_class decode_seImm, encodes_of_class decode_sneImm, fun x nn s => ⟨?_, ?_⟩⟩
  · exact ⟨_, exec_seImm s x nn, s.skipIf_spec (byte_beq_iff_toNat (s.reg x) nn)⟩
  · exact ⟨_, exec_sneImm s x nn, s.skipIf_spec (byte_bne_iff_toNat (s.reg x) nn)⟩

/-- Settles O24: both are a `skipIf` on the comparison of the two registers as unsigned numbers. -/
theorem skipOnRegisters : Obligations.SkipOnRegisters := by
  unfold Obligations.SkipOnRegisters
  refine ⟨encodes_of_class_nibble decode_seReg, encodes_of_class_nibble decode_sneReg, fun x y s => ⟨?_, ?_⟩⟩
  · exact ⟨_, exec_seReg s x y, s.skipIf_spec (byte_beq_iff_toNat (s.reg x) (s.reg y))⟩
  · exact ⟨_, exec_sneReg s x y, s.skipIf_spec (byte_bne_iff_toNat (s.reg x) (s.reg y))⟩

/-- Settles O25: JP_V0 is one write of PC with a sum that 16 bits hold, and the next fetch checks that sum. -/
theorem offsetJumpAddsV0 : Obligations.OffsetJumpAddsV0 := by
  unfold Obligations.OffsetJumpAddsV0
  refine ⟨encodes_of_class decode_jpV0, fun nnn s => ?_⟩
  have hsum := s.offsetTarget_toNat nnn
  refine ⟨_, exec_jpV0 s nnn, hsum, s.setPc_onlyChanges _, fun hgt hrun => ?_⟩
  exact step_faults_of_pc_gt _ hrun (by rw [s.setPc_pc, hsum]; exact hgt)

end Sys2Proof.Machine
end

section
/-! PROOFS. Register load, immediate add and the ALU group (41_load_alu.md): the decoder on the words of the family, one
equation for each instruction, what `setV` and `setWithFlag` leave in the registers they write, and the carry, the
not-borrow flag and the difference of bytes as numbers. -/

namespace Sys2Proof.Machine

variable (s : State)

/-! ### Decoding -/

theorem decode_ldImm {w : Word} (h : fieldClass w = 0x6) : decode w = .ok (.ldImm (fieldX w) (fieldNn w)) := by
  simp [decode, h]

theorem decode_addImm {w : Word} (h : fieldClass w = 0x7) : decode w = .ok (.addImm (fieldX w) (fieldNn w)) := by
  simp [decode, h]

theorem decode_class8 {w : Word} (h : fieldClass w = 0x8) : decode w = decodeClass8 w := by
  simp [decode, h]

/-- A row of R87: in class 8 the low nibble decides. -/
theorem encodes_class8 {p : Word} {build : Word → Instr} (hp : fieldClass p = 0x8)
    (h : ∀ w : Word, fieldN w = fieldN p → decodeClass8 w = .ok (build w)) : encodes 0xF00F p build :=
  encodes_of_class_nibble fun {w} hc hn => (decode_class8 (hc.trans hp)).trans (h w hn)

theorem encodes_ldReg : encodes 0xF00F 0x8000 fun w => .ldReg (fieldX w) (fieldY w) :=
  encodes_class8 rfl fun _ (hn : _ = 0x0) => by simp [decodeClass8, hn]

theorem encodes_or : encodes 0xF00F 0x8001 fun w => .or (fieldX w) (fieldY w) :=
  encodes_class8 rfl fun _ (hn : _ = 0x1) => by simp [decodeClass8, hn]

theorem encodes_and : encodes 0xF00F 0x8002 fun w => .and (fieldX w) (fieldY w) :=
  encodes_class8 rfl fun _ (hn : _ = 0x2) => by simp [decodeClass8, hn]

theorem encodes_xor : encodes 0xF00F 0x8003 fun w => .xor (fieldX w) (fieldY w) :=
  encodes_class8 rfl fun _ (hn : _ = 0x3) => by simp [decodeClass8, hn]

theorem encodes_addReg : encodes 0xF00F 0x8004 fun w => .addReg (fieldX w) (fieldY w) :=
  encodes_class8 rfl fun _ (hn : _ = 0x4) => by simp [decodeClass8, hn]

theorem encodes_sub : encodes 0xF00F 0x8005 fun w => .sub (fieldX w) (fieldY w) :=
  encodes_class8 rfl fun _ (hn : _ = 0x5) => by simp [decodeClass8, hn]

/-! ### One equation for each instruction -/

section
variable (x y : Reg) (nn : Byte)

theorem exec_ldImm : exec (.ldImm x nn) s = .next (s.setV x nn) := rfl

theorem exec_addImm : exec (.addImm x nn) s = .next (s.setV x (s.v[x] + nn)) := rfl

theorem exec_ldReg : exec (.ldReg x y) s = .next (s.setV x s.v[y]) := rfl

theorem exec_or : exec (.or x y) s = .next (s.setV x (s.v[x] ||| s.v[y])) := rfl

theorem exec_and : exec (.and x y) s = .next (s.setV x (s.v[x] &&& s.v[y])) := rfl

theorem exec_xor : exec (.xor x y) s = .next (s.setV x (s.v[x] ^^^ s.v[y])) := rfl

theorem exec_addReg :
    exec (.addReg x y) s = .next (s.setWithFlag x (s.v[x] + s.v[y]) (carryFlag s.v[x] s.v[y])) := rfl

theorem exec_sub :
    exec (.sub x y) s = .next (s.setWithFlag x (s.v[x] - s.v[y]) (notBorrowFlag s.v[x] s.v[y])) := rfl

end

/-! ### The registers written -/

theorem State.setV_self (x : Reg) (b : Byte) : (s.setV x b).v[x] = b := by
  rw [Fin.getElem_fin, State.setV_get, if_pos rfl]

/-- R122 (b): the flag is written last, so it stands whatever `x` is. -/
theorem State.setWithFlag_flag (x : Reg) (r f : Byte) : (s.setWithFlag x r f).v[VF] = f :=
  (s.setV x r).setV_self VF f

/-- R122 (c): the result survives the flag write unless it went to VF. -/
theorem State.setWithFlag_result {x : Reg} (r f : Byte) (hx : x ≠ VF) : (s.setWithFlag x r f).v[x] = r := by
  have hval : 15 ≠ x.val := fun e => hx (Fin.ext e.symm)
  rw [Fin.getElem_fin, State.setWithFlag_get, if_neg hval, if_pos rfl]

/-! ### Flags and results as numbers -/

/-- R122 (d): a flag is exactly 0 or 1. -/
theorem flagByte_toNat (P : Prop) [Decidable P] : (flagByte (decide P)).toNat = if P then 1 else 0 := by
  by_cases h : P <;> simp [flagByte, h]

theorem carryFlag_toNat (a b : Byte) : (carryFlag a b).toNat = if a.toNat + b.toNat > 255 then 1 else 0 :=
  flagByte_toNat _

theorem notBorrowFlag_toNat (a b : Byte) : (notBorrowFlag a b).toNat = if a.toNat ≥ b.toNat then 1 else 0 :=
  flagByte_toNat _

/-- R122 (a): the difference of bytes is the difference of integers reduced mod 256, negative ones included. -/
theorem byte_toNat_sub_int (a b : Byte) : ((a - b).toNat : Int) = ((a.toNat : Int) - b.toNat) % 256 := by
  have hb := b.isLt
  rw [BitVec.toNat_sub]
  omega

/-! ### The obligations -/

/-- Settles O26: LD_IMM is one write of `V[x]`; the anchored word is a fixed case of the decoder. -/
theorem loadImmediateSetsRegister : Obligations.LoadImmediateSetsRegister := by
  unfold Obligations.LoadImmediateSetsRegister
  refine ⟨encodes_of_class decode_ldImm, decode_ldImm rfl, fun x nn s => ?_⟩
  exact ⟨_, exec_ldImm s x nn, s.setV_self x nn, s.setV_onlyChanges x nn⟩

/-- Settles O27: ADD_IMM is one write of `V[x]` with the sum of bytes, which is the sum of numbers mod 256. -/
theorem addImmediateWraps : Obligations.AddImmediateWraps := by
  unfold Obligations.AddImmediateWraps
  refine ⟨encodes_of_class decode_addImm, decode_addImm rfl, fun x nn s => ?_⟩
  refine ⟨_, exec_addImm s x nn, ?_, s.setV_onlyChanges x _⟩
  rw [s.setV_self, BitVec.toNat_add]

/-- Settles O28: each of the four is one write of `V[x]`, with the other operand or the bitwise operation of the two. -/
theorem copyAndLogicSetRegister : Obligations.CopyAndLogicSetRegister := by
  unfold Obligations.CopyAndLogicSetRegister
  refine ⟨encodes_ldReg, encodes_or, encodes_and, encodes_xor, fun x y s => ⟨?_, ?_, ?_, ?_⟩⟩
  · exact ⟨_, exec_ldReg s x y, s.setV_self x _, s.setV_onlyChanges x _⟩
  · refine ⟨_, exec_or s x y, fun k _ => ?_, s.setV_onlyChanges x _⟩
    rw [s.setV_self, BitVec.getLsbD_or]
  · refine ⟨_, exec_and s x y, fun k _ => ?_, s.setV_onlyChanges x _⟩
    rw [s.setV_self, BitVec.getLsbD_and]
  · refine ⟨_, exec_xor s x y, fun k _ => ?_, s.setV_onlyChanges x _⟩
    rw [s.setV_self, BitVec.getLsbD_xor]

/-- Settles O29: the flag is the carry of the old operands, written last; the sum is kept unless it went to VF. -/
theorem addRegisterSetsCarry : Obligations.AddRegisterSetsCarry := by
  unfold Obligations.AddRegisterSetsCarry
  refine ⟨encodes_addReg, fun x y s => ⟨_, exec_addReg s x y, fun hx => ?_, ?_, s.setWithFlag_onlyChanges x _ _⟩⟩
  · rw [s.setWithFlag_result _ _ hx, BitVec.toNat_add]
  · rw [s.setWithFlag_flag, carryFlag_toNat]

/-- Settles O30: as for ADD_REG, with the not-borrow flag and the difference. -/
theorem subtractSetsNotBorrow : Obligations.SubtractSetsNotBorrow := by
  unfold Obligations.SubtractSetsNotBorrow
  refine ⟨encodes_sub, fun x y s => ⟨_, exec_sub s x y, fun hx => ?_, ?_, s.setWithFlag_onlyChanges x _ _⟩⟩
  · rw [s.setWithFlag_result _ _ hx, byte_toNat_sub_int]
  · rw [s.setWithFlag_flag, notBorrowFlag_toNat]

end Sys2Proof.Machine
end

section
/-! PROOFS. The index register (42_index_memory.md): the decoder on class A, LD_I as one write of I, and the frame of
that write. -/

namespace Sys2Proof.Machine

theorem decode_ldI {w : Word} (h : fieldClass w = 0xA) : decode w = .ok (.ldI (fieldNnn w)) := by
  simp [decode, h]

theorem exec_ldI (nnn : BitVec 12) (s : State) : exec (.ldI nnn) s = .next (s.setI (zextNnn nnn)) := rfl

theorem State.setI_onlyChanges (s : State) (w : Word) : s.onlyChanges (s.setI w) fun p => p = .i := by
  intro p hp
  cases p with
  | i => exact absurd rfl hp
  | _ => rfl

/-- Settles O34: LD_I is one write of I with the zero-extended address, which keeps its value as a number. -/
theorem setIndexLoadsImmediate : Obligations.SetIndexLoadsImmediate := by
  unfold Obligations.SetIndexLoadsImmediate
  refine ⟨encodes_of_class decode_ldI, fun nnn s => ?_⟩
  exact ⟨_, exec_ldI nnn s, zextNnn_toNat nnn, s.setI_onlyChanges _⟩

end Sys2Proof.Machine
end

section
/-! PROOFS. The clear screen (43_display.md): the decoder on its words, CLS as one write of the display, the frame of that
write, frames in succession, and the memory that neither the glyphs nor the image of a Reset fill. -/

namespace Sys2Proof.Machine

theorem decode_cls {w : Word} (hc : fieldClass w = 0x0) (hn : fieldN w = 0x0) : decode w = .ok .cls := by
  simp [decode, decodeClass0, hc, hn]

theorem exec_cls (s : State) : exec .cls s = .next (s.setDisp Display.clear) := rfl

/-! ### Frames -/

theorem Part.same_trans {p : Part} {s t u : State} (hst : p.same s t) (htu : p.same t u) : p.same s u := by
  cases p <;> exact Eq.trans htu hst

/-- Two changes one after the other change at most what either may. -/
theorem State.onlyChanges_trans {s t u : State} {P Q : Part → Prop} (hst : s.onlyChanges t P) (htu : t.onlyChanges u Q) :
    s.onlyChanges u fun p => P p ∨ Q p :=
  fun p hp => Part.same_trans (hst p fun h => hp (.inl h)) (htu p fun h => hp (.inr h))

theorem State.setDisp_onlyChanges (s : State) (d : Display) :
    s.onlyChanges (s.setDisp d) fun p => ∃ c, p = .disp c := by
  intro p hp
  cases p with
  | disp c => exact absurd ⟨c, rfl⟩ hp
  | _ => rfl

theorem State.advancePc_onlyChanges (s : State) : s.onlyChanges s.advancePc fun p => p = .pc :=
  s.setPc_onlyChanges _

/-! ### Memory a Reset leaves zero -/

/-- R34, R230: the bytes between the glyphs and the load offset, and those past the image, are zero. -/
theorem resetMemory_read_unwritten (g : Vector Byte 80) {rom : List Byte} (hrom : rom.length ≤ 3584) {a : Nat}
    (hglyphs : 0x050 ≤ a) (himage : a < 0x200 ∨ 0x200 + rom.length ≤ a) : (resetMemory g rom).read a = 0 := by
  rw [resetMemory_read g rom hrom a, dif_neg (by omega)]
  rcases himage with hbelow | hpast
  · rw [if_neg (by omega)]
  · rw [if_pos (by omega), List.getD_eq_default _ _ (by omega)]

theorem State.fetches_zero {s : State} (hrun : s.runState = .running) (hpc : s.pc.toNat ≤ 4094)
    (hhi : s.mem.read s.pc.toNat = 0) (hlo : s.mem.read (s.pc.toNat + 1) = 0) : s.fetches 0x0000 :=
  ⟨hrun, hpc, by rw [hhi, hlo]; rfl⟩

/-! ### The obligation -/

/-- Settles O41: CLS is one write of the empty display, alone or after the advance of PC that a Step adds; both bytes at a
PC outside the glyphs and the image are zero after a Reset. -/
theorem clearScreenClearsAll : Obligations.ClearScreenClearsAll := by
  unfold Obligations.ClearScreenClearsAll
  refine ⟨encodes_of_class_nibble decode_cls, fun s => ?_, fun s hzero => ?_, fun s g c rom p hrom hp => ?_⟩
  · exact ⟨_, exec_cls s, Display.cell_clear, s.setDisp_onlyChanges _⟩
  · have hstep : step s = .next (s.advancePc.setDisp Display.clear) := step_of_fetches s hzero (decode_cls rfl rfl)
    exact ⟨_, hstep, rfl, Display.cell_clear,
      State.onlyChanges_trans s.advancePc_onlyChanges (s.advancePc.setDisp_onlyChanges _)⟩
  · have hhi : (resetMemory g rom).read p.toNat = 0 := resetMemory_read_unwritten g hrom (by omega) (by omega)
    have hlo : (resetMemory g rom).read (p.toNat + 1) = 0 := resetMemory_read_unwritten g hrom (by omega) (by omega)
    exact State.fetches_zero rfl (show p.toNat ≤ 4094 by omega) hhi hlo

end Sys2Proof.Machine
end

section
/-! PROOFS. The timers (44_timer_key_random.md): the decoder on the words of class F, each of the three instructions as one
write, the frames of those writes, and what a number of Ticks leaves of a timer. -/

namespace Sys2Proof.Machine

variable (s : State)

/-! ### Decoding -/

/-- A row of R84 keyed by the class and the low byte. -/
theorem encodes_of_class_byte {p : Word} {build : Word → Instr}
    (h : ∀ {w : Word}, fieldClass w = fieldClass p → fieldNn w = fieldNn p → decode w = .ok (build w)) :
    encodes 0xF0FF p build :=
  fun _ hw => h (fieldClass_fieldNn_of_mask hw).1 (fieldClass_fieldNn_of_mask hw).2

theorem decode_classF {w : Word} (h : fieldClass w = 0xF) : decode w = decodeClassF w := by
  simp [decode, h]

/-- A row of R89: in class F the low byte decides. -/
theorem encodes_classF {p : Word} {build : Word → Instr} (hp : fieldClass p = 0xF)
    (h : ∀ w : Word, fieldNn w = fieldNn p → decodeClassF w = .ok (build w)) : encodes 0xF0FF p build :=
  encodes_of_class_byte fun {w} hc hn => (decode_classF (hc.trans hp)).trans (h w hn)

theorem encodes_ldVxDt : encodes 0xF0FF 0xF007 fun w => .ldVxDt (fieldX w) :=
  encodes_classF rfl fun _ (hn : _ = 0x07) => by simp [decodeClassF, hn]

theorem encodes_ldDtVx : encodes 0xF0FF 0xF015 fun w => .ldDtVx (fieldX w) :=
  encodes_classF rfl fun _ (hn : _ = 0x15) => by simp [decodeClassF, hn]

theorem encodes_ldStVx : encodes 0xF0FF 0xF018 fun w => .ldStVx (fieldX w) :=
  encodes_classF rfl fun _ (hn : _ = 0x18) => by simp [decodeClassF, hn]

/-! ### One equation for each instruction -/

theorem exec_ldVxDt (x : Reg) : exec (.ldVxDt x) s = .next (s.setV x s.dt) := rfl

theorem exec_ldDtVx (x : Reg) : exec (.ldDtVx x) s = .next (s.setDt s.v[x]) := rfl

theorem exec_ldStVx (x : Reg) : exec (.ldStVx x) s = .next (s.setSt s.v[x]) := rfl

/-! ### Frames -/

theorem State.setDt_onlyChanges (b : Byte) : s.onlyChanges (s.setDt b) fun p => p = .dt := by
  intro p hp
  cases p with
  | dt => exact absurd rfl hp
  | _ => rfl

theorem State.setSt_onlyChanges (b : Byte) : s.onlyChanges (s.setSt b) fun p => p = .st := by
  intro p hp
  cases p with
  | st => exact absurd rfl hp
  | _ => rfl

/-! ### Counting down -/

/-- R25: on numbers the countdown is the subtraction that stops at 0. -/
theorem countDown_toNat (b : Byte) : (countDown b).toNat = b.toNat - 1 := by
  by_cases h : b.toNat > 0
  · have hle : 1 ≤ b := BitVec.le_def.mpr h
    rw [countDown, if_pos h, BitVec.toNat_sub_of_le hle]
    rfl
  · rw [countDown, if_neg h]
    omega

theorem countDown_iterate_toNat (n : Nat) (b : Byte) : (countDown^[n] b).toNat = b.toNat - n := by
  induction n generalizing b with
  | zero => rfl
  | succ n ih => rw [Function.iterate_succ_apply, ih, countDown_toNat]; omega

/-- A Tick acts on DT alone as the countdown does, so any number of them does. -/
theorem State.tick_iterate_dt (n : Nat) : (State.tick^[n] s).dt = countDown^[n] s.dt :=
  Function.Semiconj.iterate_right (f := State.dt) State.tick_dt n s

theorem State.tick_iterate_st (n : Nat) : (State.tick^[n] s).st = countDown^[n] s.st :=
  Function.Semiconj.iterate_right (f := State.st) State.tick_st n s

/-- R213 after `n` Ticks: the tone lasts as many Ticks as ST says. -/
theorem State.tick_iterate_soundActive (n : Nat) : (State.tick^[n] s).soundActive = decide (n < s.st.toNat) := by
  rw [State.soundActive, s.tick_iterate_st, countDown_iterate_toNat]
  exact decide_eq_decide.mpr (by omega)

/-! ### The obligations -/

/-- Settles O48: LD_VX_DT is one write of `V[x]` with the value of DT. -/
theorem readDelayTimerLoadsRegister : Obligations.ReadDelayTimerLoadsRegister := by
  unfold Obligations.ReadDelayTimerLoadsRegister
  exact ⟨encodes_ldVxDt, fun x s => ⟨_, exec_ldVxDt s x, s.setV_self x _, s.setV_onlyChanges x _⟩⟩

/-- Settles O49: each is one write of its timer with `V[x]`, and the Ticks after it count that value down as a number. -/
theorem timerWritesThenCountDown : Obligations.TimerWritesThenCountDown := by
  unfold Obligations.TimerWritesThenCountDown
  refine ⟨encodes_ldDtVx, encodes_ldStVx, fun x s => ⟨?_, ?_⟩⟩
  · refine ⟨_, exec_ldDtVx s x, s.setDt_dt _, s.setDt_onlyChanges _, fun n => ?_⟩
    rw [State.tick_iterate_dt, countDown_iterate_toNat, s.setDt_dt]
  · refine ⟨_, exec_ldStVx s x, s.setSt_st _, s.setSt_onlyChanges _, fun n => ?_⟩
    rw [State.tick_iterate_soundActive, s.setSt_st]

end Sys2Proof.Machine
end

section
/-! PROOFS. The tone output (60_exceptions.md R213): `sound_active` as a comparison of ST with 0, everything a Step can do
(R91), and the transitions and instructions that leave ST alone. -/

namespace Sys2Proof.Machine

variable {s t : State}

/-! ### The output -/

theorem State.outputs_soundActive (s : State) : s.outputs.soundActive = decide (s.st ≠ 0) :=
  decide_eq_decide.mpr (not_congr (BitVec.toNat_inj (y := 0)))

theorem State.soundActive_congr (h : t.st = s.st) : t.outputs.soundActive = s.outputs.soundActive := by
  rw [t.outputs_soundActive, s.outputs_soundActive, h]

/-! ### Instructions -/

/-- R25: no instruction but LD_ST_VX writes ST, also when it faults or waits. -/
theorem exec_st_of_ne_ldStVx {i : Instr} (h : exec i s = .next t) (hi : ∀ x, i ≠ .ldStVx x) : t.st = s.st := by
  cases i with
  | ldStVx x => exact absurd rfl (hi x)
  | ret => obtain ⟨_, _, rfl⟩ | rfl := exec_ret_cases s t h <;> rfl
  | call nnn => obtain ⟨_, _, _, rfl⟩ | rfl := exec_call_cases s t nnn h <;> rfl
  | drw x y n => obtain ⟨_, rfl⟩ | rfl := exec_drw_cases s t x y n h <;> rfl
  | ldRegs x => obtain ⟨_, rfl⟩ | rfl := exec_ldRegs_cases s t x h <;> rfl
  | ldB x => obtain ⟨_, rfl⟩ | rfl | rfl := exec_ldB_cases s t x h <;> rfl
  | stRegs x => obtain ⟨_, rfl⟩ | rfl | rfl := exec_stRegs_cases s t x h <;> rfl
  | ldVxK x => obtain ⟨_, rfl⟩ | rfl := exec_ldVxK_cases s t x h <;> rfl
  | rnd x nn => obtain ⟨_, _, _, rfl⟩ := exec_rnd_cases s t x nn h; rfl
  | seImm | sneImm | seReg | sneReg | skp | sknp => cases h; exact s.skipIf_st _
  | _ => cases h; rfl

/-! ### The Step -/

/-- R52, R201: in RUNNING with PC in bounds a Step fetches the word at PC. -/
theorem State.fetches_fetchWord (hrun : s.runState = .running) (hfetch : s.canFetch = true) : s.fetches s.fetchWord := by
  refine ⟨hrun, by simpa [State.canFetch, Config.maxFetchPc] using hfetch, ?_⟩
  rw [State.fetchWord, wordOfBytes, BitVec.toNat_append, ← Nat.shiftLeft_add_eq_or_of_lt (BitVec.isLt _),
    Nat.shiftLeft_eq]

/-- All that a Step can do (R91, R209): nothing in HALTED, a poll in AWAITING_KEY, and in RUNNING a fetch fault, an unknown
word passed over, or the instruction fetched. -/
theorem step_cases (h : step s = .next t) :
    (s.runState = .halted ∧ t = s) ∨
    (s.runState = .awaitingKey ∧ t = s.pollKey) ∨
    (s.runState = .running ∧ s.canFetch = false ∧ t = s.raise .pcOutOfBounds) ∨
    ∃ w, s.fetches w ∧
      ((∃ e, decode w = .error e ∧ t = s.advancePc) ∨ ∃ i, decode w = .ok i ∧ exec i s.advancePc = .next t) := by
  rw [step, stepOnce] at h
  split at h
  next hhalt => cases h; exact .inl ⟨hhalt, rfl⟩
  next hwait => cases h; exact .inr (.inl ⟨hwait, rfl⟩)
  next hrun =>
    rw [runStep] at h
    split at h
    next hfetch =>
      refine .inr (.inr (.inr ⟨_, State.fetches_fetchWord hrun hfetch, ?_⟩))
      split at h
      next i hi => exact .inr ⟨i, hi, h⟩
      next e he => cases h; exact .inl ⟨e, he, rfl⟩
    next hout => cases h; exact .inr (.inr (.inl ⟨hrun, Bool.eq_false_iff.mpr hout, rfl⟩))

@[simp] theorem State.pollKey_st (s : State) : s.pollKey.st = s.st := by
  rw [State.pollKey]
  split <;> rfl

/-- A Step keeps ST unless it executes LD_ST_VX. -/
theorem step_keeps_st_or_ldStVx (h : step s = .next t) :
    t.st = s.st ∨ ∃ w x, s.fetches w ∧ decode w = .ok (.ldStVx x) := by
  obtain ⟨-, rfl⟩ | ⟨-, rfl⟩ | ⟨-, -, rfl⟩ | ⟨w, hw, ⟨_, -, rfl⟩ | ⟨i, hi, hexec⟩⟩ := step_cases h
  · exact .inl rfl
  · exact .inl s.pollKey_st
  · exact .inl (s.raise_st _)
  · exact .inl s.advancePc_st
  · by_cases hst : ∃ x, i = .ldStVx x
    · obtain ⟨x, rfl⟩ := hst
      exact .inr ⟨w, x, hw, hi⟩
    · exact .inl ((exec_st_of_ne_ldStVx hexec (not_exists.mp hst)).trans s.advancePc_st)

/-- `Step(rand)` is a Step from the state that holds the byte, which is gone after it (R216). -/
theorem stepWith_cases {r : Byte} (h : stepWith r s = .next t) :
    ∃ u, step { s with randIn := r :: s.randIn } = .next u ∧ t = { u with randIn := s.randIn } := by
  rw [stepWith] at h
  split at h
  next u hu => cases h; exact ⟨u, hu, rfl⟩
  all_goals cases h

/-- The byte that comes with the Step touches neither ST nor what is fetched. -/
theorem stepWith_keeps_st_or_ldStVx {r : Byte} (h : stepWith r s = .next t) :
    t.st = s.st ∨ ∃ w x, s.fetches w ∧ decode w = .ok (.ldStVx x) := by
  obtain ⟨u, hu, rfl⟩ := stepWith_cases h
  exact step_keeps_st_or_ldStVx (s := { s with randIn := r :: s.randIn }) (t := u) hu

/-! ### The obligation -/

/-- Settles O53: the output compares ST with 0, so a transition that changes it changes ST, which neither SetKey nor a Step
of another instruction does. -/
theorem soundFollowsSoundTimer : Obligations.SoundFollowsSoundTimer := by
  unfold Obligations.SoundFollowsSoundTimer
  refine ⟨fun s => ?_, fun s t h => State.soundActive_congr h, fun tr s t h hne => ?_⟩
  · rw [s.outputs_soundActive, decide_eq_true_iff]
  · have hst : t.st ≠ s.st := fun e => hne (State.soundActive_congr e)
    cases tr with
    | tick => exact .inl rfl
    | reset g c rom => exact .inr (.inl ⟨g, c, rom, rfl⟩)
    | step rand =>
      obtain ⟨w, x, hw, hx⟩ := (stepWith_keeps_st_or_ldStVx h).resolve_left hst
      exact .inr (.inr ⟨rand, w, x, rfl, hw, hx⟩)
    | setKey k b =>
      obtain ⟨-, rfl⟩ := apply_setKey_eq_next_iff.mp h
      exact absurd (s.setKey_st _ b) hst

end Sys2Proof.Machine
end

section
/-! PROOFS. The first Step after a Reset (70_reset_and_hazards.md R231): a Step whose word encodes nothing, and the word of
a program that a Reset leaves at PC. -/

namespace Sys2Proof.Machine

/-- R90, R206: a word that encodes no instruction is passed over. -/
theorem step_of_fetches_unknown {s : State} {w : Word} (hw : s.fetches w) (hunknown : ∀ i, decode w ≠ .ok i) :
    step s = .next s.advancePc := by
  obtain ⟨hrun, hfetch, hword⟩ := s.fetchWord_of_fetches w hw
  rw [step, stepOnce, hrun]
  simp only [runStep, if_pos hfetch, hword]
  split
  next i hi => exact absurd hi (hunknown i)
  next => rfl

/-- R64: the image from the load offset on, with zeros after its end. -/
theorem resetMemory_read_program (g : Vector Byte 80) {rom : List Byte} (hrom : rom.length ≤ 3584) (k : Nat) :
    (resetMemory g rom).read (0x200 + k) = rom.getD k 0 := by
  rw [resetMemory_read g rom hrom, dif_neg (by omega), if_pos (by omega), Nat.add_sub_cancel_left]

/-- R231: the word after a Reset is the first two bytes of the image, the first one the high byte. -/
theorem State.resetTo_fetches (s : State) (g : Vector Byte 80) (c : ShiftSrc) {rom : List Byte}
    (hrom : rom.length ≤ 3584) {w : Word} (hw : w.toNat = (rom.getD 0 0).toNat * 256 + (rom.getD 1 0).toNat) :
    (s.resetTo g c rom).fetches w := by
  refine ⟨rfl, show (0x200 : Nat) ≤ 4094 by decide, hw.trans ?_⟩
  rw [← resetMemory_read_program g hrom 0, ← resetMemory_read_program g hrom 1]
  rfl

/-- Settles O56: Reset leaves RUNNING, PC at 0x200 and the image's first word to fetch, so the first Step runs the
instruction that word encodes or passes over a word that encodes none. -/
theorem executionBeginsAtLoadOffset : Obligations.ExecutionBeginsAtLoadOffset := by
  unfold Obligations.ExecutionBeginsAtLoadOffset
  intro s g c rom hrom
  refine ⟨_, apply_reset_of_fits s g c hrom, rfl, rfl, fun w hw => ?_⟩
  have hfetches : (s.resetTo g c rom).fetches w := s.resetTo_fetches g c hrom hw
  have hadvance : (s.resetTo g c rom).advancePc = { s.resetTo g c rom with pc := 0x202 } := rfl
  rw [← hadvance]
  exact ⟨fun _ hi => step_of_fetches _ hfetches hi, step_of_fetches_unknown hfetches⟩

end Sys2Proof.Machine
end

section
/-! PROOFS. The encoding (30_encoding.md R84 to R90): the decoder on the words of the encoder and on the rows of the opcode
map, the words that decode as the encoder's words, and the words that do not decode. -/

namespace Sys2Proof.Machine

/-! ### The decoder on encoded words -/

theorem decode_encode (i : Instr) : decode (encode i) = .ok i := by
  cases i with
  | cls | ret => rfl
  | jp | call | ldI | jpV0 => simp [encode, decode]
  | seImm | sneImm | ldImm | addImm | rnd => simp [encode, decode]
  | seReg | sneReg | drw => simp [encode, decode]
  | ldReg | or | and | xor | addReg | sub | shr | subn | shl => simp [encode, decode, decodeClass8]
  | skp | sknp => simp [encode, decode, decodeClassE]
  | ldVxDt | ldVxK | ldDtVx | ldStVx | addI | ldF | ldB | stRegs | ldRegs => simp [encode, decode, decodeClassF]

/-- R52, R80: the decoder takes the two bytes of a word from the front and leaves the others. -/
theorem decodeBytes_bytesOfWord (w : Word) (rest : List Byte) :
    decodeBytes (bytesOfWord w ++ rest) = (decode w).map fun i => (i, rest) := by
  simp [bytesOfWord, decodeBytes]

/-- Settles O1: the fields of an encoded word are the class, the sub-opcode and the operands it was built from, and the
decoder dispatches on just those. -/
theorem decodeOfEncodeIsIdentity : Obligations.DecodeOfEncodeIsIdentity := by
  unfold Obligations.DecodeOfEncodeIsIdentity
  intro i rest _
  refine ⟨decode_encode i, ?_⟩
  rw [encodeBytes, decodeBytes_bytesOfWord, decode_encode]
  rfl

/-! ### The decoder on the rows of the opcode map -/

theorem encodes_shr : encodes 0xF00F 0x8006 fun w => .shr (fieldX w) (fieldY w) :=
  encodes_class8 rfl fun _ (hn : _ = 0x6) => by simp [decodeClass8, hn]

theorem encodes_subn : encodes 0xF00F 0x8007 fun w => .subn (fieldX w) (fieldY w) :=
  encodes_class8 rfl fun _ (hn : _ = 0x7) => by simp [decodeClass8, hn]

theorem encodes_shl : encodes 0xF00F 0x800E fun w => .shl (fieldX w) (fieldY w) :=
  encodes_class8 rfl fun _ (hn : _ = 0xE) => by simp [decodeClass8, hn]

theorem decode_rnd {w : Word} (h : fieldClass w = 0xC) : decode w = .ok (.rnd (fieldX w) (fieldNn w)) := by
  simp [decode, h]

theorem decode_drw {w : Word} (h : fieldClass w = 0xD) : decode w = .ok (.drw (fieldX w) (fieldY w) (fieldN w)) := by
  simp [decode, h]

theorem decode_classE {w : Word} (h : fieldClass w = 0xE) : decode w = decodeClassE w := by
  simp [decode, h]

theorem encodes_skp : encodes 0xF0FF 0xE09E fun w => .skp (fieldX w) :=
  encodes_of_class_byte fun hc (hn : _ = 0x9E) => by simp [decode_classE (hc.trans rfl), decodeClassE, hn]

theorem encodes_sknp : encodes 0xF0FF 0xE0A1 fun w => .sknp (fieldX w) :=
  encodes_of_class_byte fun hc (hn : _ = 0xA1) => by simp [decode_classE (hc.trans rfl), decodeClassE, hn]

theorem encodes_ldVxK : encodes 0xF0FF 0xF00A fun w => .ldVxK (fieldX w) :=
  encodes_classF rfl fun _ (hn : _ = 0x0A) => by simp [decodeClassF, hn]

theorem encodes_addI : encodes 0xF0FF 0xF01E fun w => .addI (fieldX w) :=
  encodes_classF rfl fun _ (hn : _ = 0x1E) => by simp [decodeClassF, hn]

theorem encodes_ldF : encodes 0xF0FF 0xF029 fun w => .ldF (fieldX w) :=
  encodes_classF rfl fun _ (hn : _ = 0x29) => by simp [decodeClassF, hn]

theorem encodes_ldB : encodes 0xF0FF 0xF033 fun w => .ldB (fieldX w) :=
  encodes_classF rfl fun _ (hn : _ = 0x33) => by simp [decodeClassF, hn]

theorem encodes_stRegs : encodes 0xF0FF 0xF055 fun w => .stRegs (fieldX w) :=
  encodes_classF rfl fun _ (hn : _ = 0x55) => by simp [decodeClassF, hn]

theorem encodes_ldRegs : encodes 0xF0FF 0xF065 fun w => .ldRegs (fieldX w) :=
  encodes_classF rfl fun _ (hn : _ = 0x65) => by simp [decodeClassF, hn]

/-- Rows 1 to 10 of R84. -/
theorem opRowsControl_encodes : ∀ row ∈ opRowsControl, encodes row.mask row.pattern row.build := by
  simp only [opRowsControl, List.forall_mem_cons]
  exact ⟨encodes_of_class_nibble decode_cls, encodes_of_class_nibble decode_ret, encodes_of_class decode_jp,
    encodes_of_class decode_call, encodes_of_class decode_seImm, encodes_of_class decode_sneImm,
    encodes_of_class_nibble decode_seReg, encodes_of_class_nibble decode_sneReg, encodes_of_class decode_ldImm,
    encodes_of_class decode_addImm, nofun⟩

/-- Rows 11 to 19 of R84. -/
theorem opRowsAlu_encodes : ∀ row ∈ opRowsAlu, encodes row.mask row.pattern row.build := by
  simp only [opRowsAlu, List.forall_mem_cons]
  exact ⟨encodes_ldReg, encodes_or, encodes_and, encodes_xor, encodes_addReg, encodes_sub, encodes_shr, encodes_subn,
    encodes_shl, nofun⟩

/-- Rows 20 to 34 of R84. -/
theorem opRowsRest_encodes : ∀ row ∈ opRowsRest, encodes row.mask row.pattern row.build := by
  simp only [opRowsRest, List.forall_mem_cons]
  exact ⟨encodes_of_class decode_ldI, encodes_of_class decode_jpV0, encodes_of_class decode_rnd,
    encodes_of_class decode_drw, encodes_skp, encodes_sknp, encodes_ldVxDt, encodes_ldVxK, encodes_ldDtVx,
    encodes_ldStVx, encodes_addI, encodes_ldF, encodes_ldB, encodes_stRegs, encodes_ldRegs, nofun⟩

theorem opcodeTable_encodes : ∀ row ∈ opcodeTable, encodes row.mask row.pattern row.build := by
  rw [opcodeTable, List.forall_mem_append, List.forall_mem_append]
  exact ⟨⟨opRowsControl_encodes, opRowsAlu_encodes⟩, opRowsRest_encodes⟩

/-- The second column of R84 names the instruction the row builds. -/
theorem opcodeTable_mnemonic : ∀ row ∈ opcodeTable, ∀ w, (row.build w).mnemonic = row.mnemonic := by
  simp [opcodeTable, opRowsControl, opRowsAlu, opRowsRest, Instr.mnemonic]

/-! ### Words that decode -/

theorem asmXyn_of_fields {w : Word} {c n : BitVec 4} (hc : fieldClass w = c) (hn : fieldN w = n) :
    asmXyn c (fieldX w) (fieldY w) n = w := by
  rw [← hc, ← hn, asmXyn_fields]

theorem asmXnn_of_class {w : Word} {c : BitVec 4} (hc : fieldClass w = c) : asmXnn c (fieldX w) (fieldNn w) = w := by
  rw [← hc, asmXnn_fields]

theorem asmXnn_of_fields {w : Word} {c : BitVec 4} {nn : Byte} (hc : fieldClass w = c) (hn : fieldNn w = nn) :
    asmXnn c (fieldX w) nn = w := by
  rw [← hc, ← hn, asmXnn_fields]

theorem asmNnn_of_class {w : Word} {c : BitVec 4} (hc : fieldClass w = c) : asmNnn c (fieldNnn w) = w := by
  rw [← hc, asmNnn_fields]

/-- The mask 0xF00F keeps the class and the low nibble. -/
theorem mask_class_nibble {w : Word} {c n : BitVec 4} (hc : fieldClass w = c) (hn : fieldN w = n) :
    w &&& 0xF00F = asmXyn c 0 0 n := by
  rw [← Laws.EncodedInRow.mask_xyn c (fieldX w) (fieldY w) n, asmXyn_of_fields hc hn]

/-- The word is the encoding of `i`, whose encoding the decoder reads whole. -/
def Reencodes (w : Word) (i : Instr) : Prop := i ≠ .cls ∧ i ≠ .ret ∧ encode i = w

theorem decodeClass0_eq_ok {w : Word} {i : Instr} (hc : fieldClass w = 0x0) (h : decodeClass0 w = .ok i) :
    (i = .cls ∧ w &&& 0xF00F = 0x0000) ∨ (i = .ret ∧ w &&& 0xF00F = 0x000E) := by
  rw [decodeClass0] at h
  split at h <;> cases h
  next hn => exact .inl ⟨rfl, (mask_class_nibble hc hn).trans rfl⟩
  next hn => exact .inr ⟨rfl, (mask_class_nibble hc hn).trans rfl⟩

theorem decodeClass8_eq_ok {w : Word} {i : Instr} (hc : fieldClass w = 0x8) (h : decodeClass8 w = .ok i) :
    Reencodes w i := by
  rw [decodeClass8] at h
  split at h <;> cases h <;> exact ⟨nofun, nofun, asmXyn_of_fields hc ‹_›⟩

theorem decodeClassE_eq_ok {w : Word} {i : Instr} (hc : fieldClass w = 0xE) (h : decodeClassE w = .ok i) :
    Reencodes w i := by
  rw [decodeClassE] at h
  split at h <;> cases h <;> exact ⟨nofun, nofun, asmXnn_of_fields hc ‹_›⟩

theorem decodeClassF_eq_ok {w : Word} {i : Instr} (hc : fieldClass w = 0xF) (h : decodeClassF w = .ok i) :
    Reencodes w i := by
  rw [decodeClassF] at h
  split at h <;> cases h <;> exact ⟨nofun, nofun, asmXnn_of_fields hc ‹_›⟩

/-- The last class is what the fifteen others leave. -/
theorem nibble_eq_F {c : BitVec 4} : c ∉ [0x0, 0x1, 0x2, 0x3, 0x4, 0x5, 0x6, 0x7, 0x8, 0x9, 0xA, 0xB, 0xC, 0xD, 0xE] →
    c = 0xF := by
  decide +revert

/-- Settles O3: a decoded word keeps all its fields in the instruction, which the encoder puts back in their places; class 0
alone keeps only its low nibble. -/
theorem decodedWordReencodes : Obligations.DecodedWordReencodes := by
  unfold Obligations.DecodedWordReencodes
  intro w i h
  rw [← or_assoc]
  change _ ∨ Reencodes w i
  rw [decode] at h
  split at h
  case h_1 hc => exact .inl (decodeClass0_eq_ok hc h)
  case h_2 hc | h_3 hc | h_11 hc | h_12 hc => cases h; exact .inr ⟨nofun, nofun, asmNnn_of_class hc⟩
  case h_4 hc | h_5 hc | h_7 hc | h_8 hc | h_13 hc => cases h; exact .inr ⟨nofun, nofun, asmXnn_of_class hc⟩
  case h_6 hc | h_10 hc => split at h <;> cases h; exact .inr ⟨nofun, nofun, asmXyn_of_fields hc ‹_›⟩
  case h_9 hc => exact .inr (decodeClass8_eq_ok hc h)
  case h_14 hc => cases h; exact .inr ⟨nofun, nofun, asmXyn_of_fields hc rfl⟩
  case h_15 hc => exact .inr (decodeClassE_eq_ok hc h)
  case h_16 => exact .inr (decodeClassF_eq_ok (nibble_eq_F (by simp_all)) h)

/-- R84 row by row: the word of each instruction selects the row of its mnemonic (Laws/PerInstr). -/
theorem encodedInRow : ∀ i, Laws.EncodedInRow.Statement i
  | .cls => Laws.EncodedInRow.cls
  | .ret => Laws.EncodedInRow.ret
  | .jp nnn => Laws.EncodedInRow.jp nnn
  | .call nnn => Laws.EncodedInRow.call nnn
  | .seImm x nn => Laws.EncodedInRow.seImm x nn
  | .sneImm x nn => Laws.EncodedInRow.sneImm x nn
  | .seReg x y => Laws.EncodedInRow.seReg x y
  | .sneReg x y => Laws.EncodedInRow.sneReg x y
  | .ldImm x nn => Laws.EncodedInRow.ldImm x nn
  | .addImm x nn => Laws.EncodedInRow.addImm x nn
  | .ldReg x y => Laws.EncodedInRow.ldReg x y
  | .or x y => Laws.EncodedInRow.or x y
  | .and x y => Laws.EncodedInRow.and x y
  | .xor x y => Laws.EncodedInRow.xor x y
  | .addReg x y => Laws.EncodedInRow.addReg x y
  | .sub x y => Laws.EncodedInRow.sub x y
  | .shr x y => Laws.EncodedInRow.shr x y
  | .subn x y => Laws.EncodedInRow.subn x y
  | .shl x y => Laws.EncodedInRow.shl x y
  | .ldI nnn => Laws.EncodedInRow.ldI nnn
  | .jpV0 nnn => Laws.EncodedInRow.jpV0 nnn
  | .rnd x nn => Laws.EncodedInRow.rnd x nn
  | .drw x y n => Laws.EncodedInRow.drw x y n
  | .skp x => Laws.EncodedInRow.skp x
  | .sknp x => Laws.EncodedInRow.sknp x
  | .ldVxDt x => Laws.EncodedInRow.ldVxDt x
  | .ldVxK x => Laws.EncodedInRow.ldVxK x
  | .ldDtVx x => Laws.EncodedInRow.ldDtVx x
  | .ldStVx x => Laws.EncodedInRow.ldStVx x
  | .addI x => Laws.EncodedInRow.addI x
  | .ldF x => Laws.EncodedInRow.ldF x
  | .ldB x => Laws.EncodedInRow.ldB x
  | .stRegs x => Laws.EncodedInRow.stRegs x
  | .ldRegs x => Laws.EncodedInRow.ldRegs x

/-- A word that decodes selects a row of the map. -/
theorem exists_row_of_decode {w : Word} {i : Instr} (h : decode w = .ok i) :
    ∃ row ∈ opcodeTable, w &&& row.mask = row.pattern := by
  obtain ⟨-, hcls⟩ | ⟨-, hret⟩ | ⟨-, -, rfl⟩ := decodedWordReencodes w i h
  · exact ⟨opcodeTable[0], List.getElem_mem _, hcls⟩
  · exact ⟨opcodeTable[1], List.getElem_mem _, hret⟩
  · obtain ⟨row, hrow, -, hmatch⟩ := encodedInRow i
    exact ⟨row, hrow, beq_iff_eq.mp hmatch⟩

/-- Settles O2: every row of the map is a case of the decoder, a word that decodes selects a row, and two rows that one word
selects build its one instruction. -/
theorem decodeFollowsOpcodeMap : Obligations.DecodeFollowsOpcodeMap := by
  unfold Obligations.DecodeFollowsOpcodeMap
  refine ⟨rfl, fun w => ⟨fun row hrow hw => ?_, fun hnone => ?_, fun r₁ h₁ r₂ h₂ hw₁ hw₂ => ?_⟩⟩
  · exact ⟨opcodeTable_encodes row hrow w hw, opcodeTable_mnemonic row hrow w⟩
  · cases hd : decode w with
    | error e => exact ⟨e, rfl⟩
    | ok i =>
      obtain ⟨row, hrow, hw⟩ := exists_row_of_decode hd
      exact absurd hw (hnone row hrow)
  · have hbuild : r₁.build w = r₂.build w :=
      Except.ok.inj ((opcodeTable_encodes r₁ h₁ w hw₁).symm.trans (opcodeTable_encodes r₂ h₂ w hw₂))
    rw [← opcodeTable_mnemonic r₁ h₁ w, hbuild, opcodeTable_mnemonic r₂ h₂ w]

/-! ### Words that do not decode -/

theorem decodeClass0_error_iff (w : Word) : (∃ e, decodeClass0 w = .error e) ↔ fieldN w ∉ [0x0, 0xE] := by
  rw [decodeClass0]
  split <;> simp_all

/-- R90 lists for class 8 the low nibbles that R87 does not. -/
theorem class8_unknown_iff (n : BitVec 4) :
    n ∈ [0x8, 0x9, 0xA, 0xB, 0xC, 0xD, 0xF] ↔ n ∉ [0x0, 0x1, 0x2, 0x3, 0x4, 0x5, 0x6, 0x7, 0xE] := by
  decide +revert

theorem decodeClass8_error_iff (w : Word) :
    (∃ e, decodeClass8 w = .error e) ↔ fieldN w ∈ [0x8, 0x9, 0xA, 0xB, 0xC, 0xD, 0xF] := by
  rw [class8_unknown_iff, decodeClass8]
  split <;> simp_all

theorem decodeClassE_error_iff (w : Word) : (∃ e, decodeClassE w = .error e) ↔ fieldNn w ∉ [0x9E, 0xA1] := by
  rw [decodeClassE]
  split <;> simp_all

theorem decodeClassF_error_iff (w : Word) :
    (∃ e, decodeClassF w = .error e) ↔ fieldNn w ∉ [0x07, 0x0A, 0x15, 0x18, 0x1E, 0x29, 0x33, 0x55, 0x65] := by
  rw [decodeClassF]
  split <;> simp_all

/-- Settles O5: a class that is one row has no error, and each other class has the errors of its own sub-decoder. -/
theorem unknownSpaceIsExact : Obligations.UnknownSpaceIsExact := by
  unfold Obligations.UnknownSpaceIsExact
  intro w
  rw [← decodeClass0_error_iff, ← decodeClass8_error_iff, ← decodeClassE_error_iff, ← decodeClassF_error_iff, decode]
  split
  case h_6 hc | h_10 hc => by_cases hn : fieldN w = 0#4 <;> simp [hc, hn]
  case h_16 =>
    have hc : fieldClass w = 0xF := nibble_eq_F (by simp_all)
    simp [hc]
  all_goals simp [*]

/-- Settles O4: fixed words of table B1, run through the decoder. -/
theorem listedWordsDecode : Obligations.ListedWordsDecode := by
  unfold Obligations.ListedWordsDecode
  decide

end Sys2Proof.Machine
end

section
/-! PROOFS. What one execution of an instruction can do. First one equation for each outcome of the instructions that can end
in more than one way, then the effect of every instruction said once: it completes with its own writes, or enters HALTED with a
fault it can raise (60_exceptions.md R200). -/

namespace Sys2Proof.Machine

variable (s : State)

/-! ### Stores through I -/

/-- The state a store of `bytes` through I leaves when it completes. -/
def State.stored (s : State) (bytes : List Byte) : State := { s with mem := s.mem.writeBytes s.i.toNat bytes }

section
variable {bytes : List Byte}

theorem storeThroughI_of_inRange (hlo : 0x200 ≤ s.i.toNat) (hhi : s.i.toNat + bytes.length ≤ 4096) :
    storeThroughI bytes s = s.stored bytes := by
  rw [storeThroughI, s.effAddr_eq, Nat.add_zero, s.store_of_ok _ _ (.inr ⟨hlo, hhi⟩)]
  rfl

theorem storeThroughI_of_low (h0 : bytes.length ≠ 0) (hlo : s.i.toNat < 0x200) :
    storeThroughI bytes s = s.raise .writeProtected := by
  rw [storeThroughI, s.effAddr_eq, Nat.add_zero, s.store_of_low _ _ h0 hlo]

theorem storeThroughI_of_out (h0 : bytes.length ≠ 0) (hlo : 0x200 ≤ s.i.toNat)
    (hout : 4096 < s.i.toNat + bytes.length) : storeThroughI bytes s = s.raise .dataAddressOutOfBounds := by
  rw [storeThroughI, s.effAddr_eq, Nat.add_zero, s.store_of_out _ _ h0 hlo hout]

end

theorem exec_ldB (x : Reg) : exec (.ldB x) s = .next (storeThroughI (bcdDigits s.v[x]) s) := rfl

theorem exec_stRegs (x : Reg) : exec (.stRegs x) s = .next (storeThroughI (s.regBlock x) s) := rfl

/-! ### Loads through I -/

theorem exec_ldRegs_of_inRange {x : Reg} (h : s.i.toNat + x.val ≤ 4095) :
    exec (.ldRegs x) s = .next (s.setRegBlock x (s.mem.readBytes s.i.toNat (x.val + 1))) := by
  simp only [exec, execLdRegs, s.effAddr_eq, Nat.add_zero, s.load_of_ok _ _ (.inr (by omega : s.i.toNat + (x.val + 1) ≤ 4096))]

theorem exec_ldRegs_of_out {x : Reg} (h : 4095 < s.i.toNat + x.val) :
    exec (.ldRegs x) s = .next (s.raise .dataAddressOutOfBounds) := by
  simp only [exec, execLdRegs, s.effAddr_eq, Nat.add_zero, s.load_of_out s.i.toNat (x.val + 1) (by omega) (by omega)]

section
variable {x y : Reg} {n : BitVec 4}

theorem exec_drw_of_inRange (h : n.toNat = 0 ∨ s.i.toNat + n.toNat ≤ 4096) :
    exec (.drw x y n) s = .next (s.drawSprite x y (s.mem.readBytes s.i.toNat n.toNat)) := by
  simp only [exec, execDrw, s.effAddr_eq, Nat.add_zero, s.load_of_ok _ _ h]

theorem exec_drw_of_out (h0 : n.toNat ≠ 0) (h : 4096 < s.i.toNat + n.toNat) :
    exec (.drw x y n) s = .next (s.raise .dataAddressOutOfBounds) := by
  simp only [exec, execDrw, s.effAddr_eq, Nat.add_zero, s.load_of_out _ _ h0 h]

end

/-! ### Waiting for a key -/

/-- The state an LD_VX_K leaves that finds no key pressed (R174). -/
def State.suspended (s : State) (x : Reg) : State := { s with pc := s.pc - 2, waitX := x, runState := .awaitingKey }

theorem exec_ldVxK_of_key {k : Fin 16} (x : Reg) (h : s.leastKey = some k) :
    exec (.ldVxK x) s = .next (s.setV x (keyByte k)) := by
  simp only [exec, execLdVxK, h]

theorem exec_ldVxK_of_noKey (x : Reg) (h : s.leastKey = none) : exec (.ldVxK x) s = .next (s.suspended x) := by
  simp only [exec, execLdVxK, h]
  rfl

/-! ### The effect of an instruction -/

/-- What instruction `i` does when it completes, as far as who writes what is concerned: which operation of Ops.lean, with
values left free. Where a value is bounded, or a flag decides, the bound is said. -/
def Effect (i : Instr) (s t : State) : Prop :=
  match i with
  | .cls => t = s.setDisp Display.clear
  | .ret => ∃ h, t = s.returned h
  | .jp nnn => t = s.setPc (zextNnn nnn)
  | .call nnn => ∃ h, t = s.callTo nnn h
  | .jpV0 nnn => t = s.setPc (s.offsetTarget nnn)
  | .seImm _ _ | .sneImm _ _ | .seReg _ _ | .sneReg _ _ | .skp _ | .sknp _ => ∃ c, t = s.skipIf c
  | .ldImm x _ | .addImm x _ | .ldReg x _ | .or x _ | .and x _ | .xor x _ | .ldVxDt x => ∃ b, t = s.setV x b
  | .addReg x _ | .sub x _ | .shr x _ | .subn x _ | .shl x _ => ∃ r f, t = s.setWithFlag x r f
  | .ldI _ | .addI _ | .ldF _ => ∃ w, t = s.setI w
  | .rnd x _ => ∃ b, t = s.takeRand.setV x b
  | .drw x y _ => ∃ rows, t = s.drawSprite x y rows
  | .ldVxK x => (∃ b, t = s.setV x b) ∨ t = s.suspended x
  | .ldDtVx _ => ∃ b, t = s.setDt b
  | .ldStVx x => t = s.setSt s.v[x]
  | .ldB _ | .stRegs _ => 0x200 ≤ s.i.toNat ∧ ∃ bytes, t = s.stored bytes
  | .ldRegs x => ∃ bytes, t = s.setRegBlock x bytes

/-- Instruction `i` ends in `t`: it completes, or it enters HALTED with a fault that R200 lets it raise. -/
def EndsIn (i : Instr) (s t : State) : Prop := Effect i s t ∨ ∃ c, raises i c ∧ t = s.raise c

/-- Every instruction answers a next state, and that state is one of those `EndsIn` names. -/
theorem exec_endsIn (i : Instr) : ∃ t, exec i s = .next t ∧ EndsIn i s t := by
  cases i with
  | ret =>
    by_cases h : 0 < s.sp.val
    · exact ⟨_, exec_ret_of_entry s h, .inl ⟨h, rfl⟩⟩
    · exact ⟨_, exec_ret_of_empty s h, .inr ⟨.stackUnderflow, rfl, rfl⟩⟩
  | call nnn =>
    by_cases h : s.sp.val < 16
    · exact ⟨_, exec_call_of_room s nnn h, .inl ⟨h, rfl⟩⟩
    · exact ⟨_, exec_call_of_full s nnn h, .inr ⟨.stackOverflow, ⟨nnn, rfl⟩, rfl⟩⟩
  | drw x y n =>
    by_cases h : n.toNat = 0 ∨ s.i.toNat + n.toNat ≤ 4096
    · exact ⟨_, exec_drw_of_inRange s h, .inl ⟨_, rfl⟩⟩
    · exact ⟨_, exec_drw_of_out s (by omega) (by omega), .inr ⟨.dataAddressOutOfBounds, .inl ⟨x, y, n, rfl⟩, rfl⟩⟩
  | ldRegs x =>
    by_cases h : s.i.toNat + x.val ≤ 4095
    · exact ⟨_, exec_ldRegs_of_inRange s h, .inl ⟨_, rfl⟩⟩
    · exact ⟨_, exec_ldRegs_of_out s (by omega), .inr ⟨.dataAddressOutOfBounds, .inr ⟨x, .inr (.inr rfl)⟩, rfl⟩⟩
  | ldB x =>
    refine ⟨_, exec_ldB s x, ?_⟩
    obtain ⟨hlo, e⟩ | e | e := storeThroughI_cases s (bcdDigits s.v[x]) <;> rw [e]
    · exact .inl ⟨hlo.resolve_left (by simp), _, rfl⟩
    · exact .inr ⟨.writeProtected, ⟨x, .inl rfl⟩, rfl⟩
    · exact .inr ⟨.dataAddressOutOfBounds, .inr ⟨x, .inl rfl⟩, rfl⟩
  | stRegs x =>
    refine ⟨_, exec_stRegs s x, ?_⟩
    obtain ⟨hlo, e⟩ | e | e := storeThroughI_cases s (s.regBlock x) <;> rw [e]
    · exact .inl ⟨hlo.resolve_left (by simp), _, rfl⟩
    · exact .inr ⟨.writeProtected, ⟨x, .inr rfl⟩, rfl⟩
    · exact .inr ⟨.dataAddressOutOfBounds, .inr ⟨x, .inr (.inl rfl)⟩, rfl⟩
  | ldVxK x =>
    cases h : s.leastKey with
    | some k => exact ⟨_, exec_ldVxK_of_key s x h, .inl (.inl ⟨_, rfl⟩)⟩
    | none => exact ⟨_, exec_ldVxK_of_noKey s x h, .inl (.inr rfl)⟩
  | cls | jp | jpV0 | ldStVx => exact ⟨_, rfl, .inl rfl⟩
  | addReg | sub | shr | subn | shl => exact ⟨_, rfl, .inl ⟨_, _, rfl⟩⟩
  | _ => exact ⟨_, rfl, .inl ⟨_, rfl⟩⟩

variable {s} {t : State} {i : Instr}

theorem endsIn_of_exec (h : exec i s = .next t) : EndsIn i s t := by
  obtain ⟨u, hu, hends⟩ := exec_endsIn s i
  cases hu.symm.trans h
  exact hends

end Sys2Proof.Machine
end

section
/-! PROOFS. Whole-machine rules (10_state.md sections 2 to 11): which instructions can change each piece of state, read off
the effects of the instructions; and what no instruction reads: ST (R25), and but for RND the random input (R216). -/

namespace Sys2Proof.Machine

variable {s t : State} {i : Instr}

/-! ### Writers of the registers -/

theorem State.eq_of_setV_ne {x k : Reg} {b : Byte} (h : (s.setV x b).v[k] ≠ s.v[k]) : k = x := by
  by_contra hne
  exact h (s.setV_onlyChanges x b (.v k) (by simpa using hne))

theorem State.eq_or_eq_of_setWithFlag_ne {x k : Reg} {r f : Byte} (h : (s.setWithFlag x r f).v[k] ≠ s.v[k]) :
    k = x ∨ k = VF := by
  by_contra hne
  exact h (s.setWithFlag_onlyChanges x r f (.v k) (by simpa using hne))

theorem State.le_of_setRegBlock_ne {x k : Reg} {bytes : List Byte} (h : (s.setRegBlock x bytes).v[k] ≠ s.v[k]) :
    k ≤ x := by
  by_contra hgt
  exact h ((s.setRegBlock_get x bytes k.val k.isLt).trans (if_neg hgt))

/-- The instructions that can change `V[k]` (R20, R21): `k` is a destination they name, or VF and they write a flag. -/
def WritesReg (i : Instr) (k : Reg) : Prop :=
  (∃ nn, i = .ldImm k nn ∨ i = .addImm k nn ∨ i = .rnd k nn) ∨
  (∃ y, i = .ldReg k y ∨ i = .or k y ∨ i = .and k y ∨ i = .xor k y ∨ i = .addReg k y ∨ i = .sub k y ∨
    i = .shr k y ∨ i = .subn k y ∨ i = .shl k y) ∨
  i = .ldVxDt k ∨ i = .ldVxK k ∨ (∃ x, k ≤ x ∧ i = .ldRegs x) ∨
  (k = VF ∧ ∃ x y, i = .addReg x y ∨ i = .sub x y ∨ i = .shr x y ∨ i = .subn x y ∨ i = .shl x y ∨
    ∃ n, i = .drw x y n)

theorem writesReg_of_exec {k : Reg} (h : exec i s = .next t) (hk : t.v[k] ≠ s.v[k]) : WritesReg i k := by
  obtain heff | ⟨_, -, rfl⟩ := endsIn_of_exec h
  · cases i with
    | ldImm | addImm | ldReg | or | and | xor | ldVxDt =>
      obtain ⟨_, rfl⟩ := heff
      obtain rfl := State.eq_of_setV_ne hk
      simp [WritesReg]
    | rnd x nn =>
      obtain ⟨_, rfl⟩ := heff
      rw [← s.takeRand_v] at hk
      obtain rfl := State.eq_of_setV_ne hk
      simp [WritesReg]
    | ldVxK x =>
      obtain ⟨_, rfl⟩ | rfl := heff
      · obtain rfl := State.eq_of_setV_ne hk
        simp [WritesReg]
      · exact absurd rfl hk
    | addReg | sub | shr | subn | shl =>
      obtain ⟨_, _, rfl⟩ := heff
      obtain rfl | rfl := State.eq_or_eq_of_setWithFlag_ne hk <;> simp [WritesReg]
    | drw x y n =>
      obtain ⟨_, rfl⟩ := heff
      obtain rfl := State.eq_of_setV_ne (s := s.setDisp _) hk
      simp [WritesReg]
    | ldRegs x =>
      obtain ⟨_, rfl⟩ := heff
      simp [WritesReg, State.le_of_setRegBlock_ne hk]
    | cls | jp | jpV0 | ldStVx => cases heff; exact absurd rfl hk
    | ret | call | ldI | addI | ldF | ldDtVx => obtain ⟨_, rfl⟩ := heff; exact absurd rfl hk
    | seImm | sneImm | seReg | sneReg | skp | sknp =>
      obtain ⟨_, rfl⟩ := heff
      rw [s.skipIf_v] at hk
      exact absurd rfl hk
    | ldB | stRegs => obtain ⟨-, _, rfl⟩ := heff; exact absurd rfl hk
  · exact absurd rfl hk

/-! ### The obligations -/

/-- Settles O57: a fault entry changes RUN_STATE and FAULT_CAUSE alone, and an instruction that completes changes what the
operation it ends in (`Effect`) changes. -/
theorem onlyItsWritersChangeState : Obligations.OnlyItsWritersChangeState := by
  unfold Obligations.OnlyItsWritersChangeState
  intro i s t h
  refine ⟨fun k hk => writesReg_of_exec h hk, ?_⟩
  obtain heff | ⟨c, hc, rfl⟩ := endsIn_of_exec h
  · cases i with
    | cls | jp | jpV0 | ldStVx => cases heff; simp
    | ret | call => obtain ⟨_, rfl⟩ := heff; simp [State.returned, State.callTo]
    | seImm | sneImm | seReg | sneReg | skp | sknp => obtain ⟨_, rfl⟩ := heff; simp
    | ldImm | addImm | ldReg | or | and | xor | ldVxDt | rnd => obtain ⟨_, rfl⟩ := heff; simp
    | addReg | sub | shr | subn | shl => obtain ⟨_, _, rfl⟩ := heff; simp
    | ldI | addI | ldF | ldDtVx | ldRegs => obtain ⟨_, rfl⟩ := heff; simp
    | drw => obtain ⟨_, rfl⟩ := heff; simp [State.drawSprite_eq]
    | ldVxK => obtain ⟨_, rfl⟩ | rfl := heff <;> simp [State.suspended]
    | ldB | stRegs => obtain ⟨-, _, rfl⟩ := heff; simp [State.stored]
  · have hfault : ∃ c', raises i c' ∧ s.faultsInto (s.raise c) c' := ⟨c, hc, s.raise_faultsInto c⟩
    simp [hfault]

/-- Settles O33: the writers of VF are the writers of `V[k]` at `k = 0xF`; a block load reaches VF only with `x = 0xF`. -/
theorem flagIsWrittenOnlyByItsWriters : Obligations.FlagIsWrittenOnlyByItsWriters := by
  unfold Obligations.FlagIsWrittenOnlyByItsWriters
  intro i s t h hVF
  have hlast : ∀ x : Reg, VF ≤ x → x = VF := by decide
  obtain himm | ⟨y, h'⟩ | h' | h' | ⟨x, hx, rfl⟩ | ⟨-, x, y, h'⟩ := writesReg_of_exec h hVF
  · exact .inr (.inl himm)
  · rcases h' with rfl | rfl | rfl | rfl | rfl | rfl | rfl | rfl | rfl <;> simp
  · simp [h']
  · simp [h']
  · simp [hlast x hx]
  · rcases h' with rfl | rfl | rfl | rfl | rfl | ⟨n, rfl⟩ <;> simp

/-! ### What instructions do not read -/

/-- The state with other values in ST and in the random input. -/
def State.withUnread (s : State) (b : Byte) (bytes : List Byte) (n : Nat) : State :=
  { s with st := b, randIn := bytes, randIx := n }

section
variable (s) (b : Byte) (bytes : List Byte) (n : Nat)

theorem State.skipIf_withUnread (c : Bool) :
    (s.withUnread b bytes n).skipIf c = (s.skipIf c).withUnread b bytes n := by
  cases c <;> rfl

theorem storeThroughI_withUnread (vs : List Byte) :
    storeThroughI vs (s.withUnread b bytes n) = (storeThroughI vs s).withUnread b bytes n := by
  have haddr : (s.withUnread b bytes n).effAddr 0 = s.effAddr 0 := rfl
  rw [storeThroughI, storeThroughI, State.store, State.store, haddr]
  cases writeFault (s.effAddr 0) vs.length <;> rfl

/-- An instruction other than LD_ST_VX and RND does the same whatever ST and the random input are, and keeps them. -/
theorem exec_withUnread (hst : ∀ x, i ≠ .ldStVx x) (hrnd : ∀ x nn, i ≠ .rnd x nn) :
    ∃ t, exec i s = .next t ∧ exec i (s.withUnread b bytes n) = .next (t.withUnread b bytes n) := by
  cases i with
  | ldStVx x => exact absurd rfl (hst x)
  | rnd x nn => exact absurd rfl (hrnd x nn)
  | ret =>
    by_cases h : 0 < s.sp.val
    · exact ⟨_, exec_ret_of_entry s h, exec_ret_of_entry (s.withUnread b bytes n) h⟩
    · exact ⟨_, exec_ret_of_empty s h, exec_ret_of_empty (s.withUnread b bytes n) h⟩
  | call nnn =>
    by_cases h : s.sp.val < 16
    · exact ⟨_, exec_call_of_room s nnn h, exec_call_of_room (s.withUnread b bytes n) nnn h⟩
    · exact ⟨_, exec_call_of_full s nnn h, exec_call_of_full (s.withUnread b bytes n) nnn h⟩
  | drw x y n' =>
    by_cases h : n'.toNat = 0 ∨ s.i.toNat + n'.toNat ≤ 4096
    · exact ⟨_, exec_drw_of_inRange s h, exec_drw_of_inRange (s.withUnread b bytes n) h⟩
    · have h0 : n'.toNat ≠ 0 := by omega
      have hout : 4096 < s.i.toNat + n'.toNat := by omega
      exact ⟨_, exec_drw_of_out s h0 hout, exec_drw_of_out (s.withUnread b bytes n) h0 hout⟩
  | ldRegs x =>
    by_cases h : s.i.toNat + x.val ≤ 4095
    · exact ⟨_, exec_ldRegs_of_inRange s h, exec_ldRegs_of_inRange (s.withUnread b bytes n) h⟩
    · have hout : 4095 < s.i.toNat + x.val := by omega
      exact ⟨_, exec_ldRegs_of_out s hout, exec_ldRegs_of_out (s.withUnread b bytes n) hout⟩
  | ldB x => exact ⟨_, exec_ldB s x, congrArg _ (storeThroughI_withUnread s b bytes n _)⟩
  | stRegs x => exact ⟨_, exec_stRegs s x, congrArg _ (storeThroughI_withUnread s b bytes n _)⟩
  | ldVxK x =>
    cases h : s.leastKey with
    | some k => exact ⟨_, exec_ldVxK_of_key s x h, exec_ldVxK_of_key (s.withUnread b bytes n) x h⟩
    | none => exact ⟨_, exec_ldVxK_of_noKey s x h, exec_ldVxK_of_noKey (s.withUnread b bytes n) x h⟩
  | seImm | sneImm | seReg | sneReg | skp | sknp =>
    exact ⟨_, rfl, congrArg _ (s.skipIf_withUnread b bytes n _)⟩
  | _ => exact ⟨_, rfl, rfl⟩

end

/-- What such an instruction does not read it does not write either. -/
theorem exec_keeps_unread (h : exec i s = .next t) (hst : ∀ x, i ≠ .ldStVx x) (hrnd : ∀ x nn, i ≠ .rnd x nn) :
    t.st = s.st ∧ t.randIn = s.randIn ∧ t.randIx = s.randIx := by
  obtain ⟨u, hu, hown⟩ := exec_withUnread s s.st s.randIn s.randIx hst hrnd
  have hself : exec i s = .next (u.withUnread s.st s.randIn s.randIx) := hown
  cases h.symm.trans hself
  exact ⟨rfl, rfl, rfl⟩

theorem State.withUnread_of_st {b : Byte} {bytes : List Byte} {n : Nat} (h : t.st = b) :
    t.withUnread b bytes n = { t with randIn := bytes, randIx := n } := by
  subst h; rfl

theorem State.withUnread_of_rand {b : Byte} {bytes : List Byte} {n : Nat} (hin : t.randIn = bytes)
    (hix : t.randIx = n) : t.withUnread b bytes n = { t with st := b } := by
  subst hin hix; rfl

/-- Settles O46: ST is no part of the random input, and every other instruction but RND neither reads nor writes it. -/
theorem onlyRandomReadsRand : Obligations.OnlyRandomReadsRand := by
  unfold Obligations.OnlyRandomReadsRand
  intro i s bytes n hrnd
  by_cases hst : ∃ x, i = .ldStVx x
  · obtain ⟨x, rfl⟩ := hst
    exact ⟨_, exec_ldStVx s x, rfl, rfl, rfl⟩
  · have hst := not_exists.mp hst
    obtain ⟨t, ht, hother⟩ := exec_withUnread s s.st bytes n hst hrnd
    obtain ⟨hkeep, hin, hix⟩ := exec_keeps_unread ht hst hrnd
    rw [State.withUnread_of_st hkeep] at hother
    exact ⟨t, ht, hin, hix, hother⟩

theorem exec_rnd_withSt (s : State) (b : Byte) (x : Reg) (nn : Byte) :
    exec (.rnd x nn) { s with st := b } = .next { s.takeRand.setV x (s.rand &&& nn) with st := b } := by
  cases h : s.randIn <;> simp [exec, execRnd, State.rand, State.takeRand, State.setV, h]

/-- R25: with another value in ST, an instruction other than LD_ST_VX does the same and keeps that value. -/
theorem exec_withSt (s : State) (b : Byte) (hst : ∀ x, i ≠ .ldStVx x) :
    ∃ t, exec i s = .next t ∧ t.st = s.st ∧ exec i { s with st := b } = .next { t with st := b } := by
  by_cases hrnd : ∃ x nn, i = .rnd x nn
  · obtain ⟨x, nn, rfl⟩ := hrnd
    exact ⟨_, rfl, s.takeRand_st, exec_rnd_withSt s b x nn⟩
  · have hrnd : ∀ x nn, i ≠ .rnd x nn := by simpa using hrnd
    obtain ⟨t, ht, hother⟩ := exec_withUnread s b s.randIn s.randIx hst hrnd
    obtain ⟨hkeep, hin, hix⟩ := exec_keeps_unread ht hst hrnd
    rw [State.withUnread_of_rand hin hix] at hother
    exact ⟨t, ht, hkeep, hother⟩

/-- Settles O58: LD_ST_VX writes ST alike in both runs, and any other instruction keeps the value in each. -/
theorem noInstructionReadsSoundTimer : Obligations.NoInstructionReadsSoundTimer := by
  unfold Obligations.NoInstructionReadsSoundTimer
  intro i s b
  by_cases hst : ∃ x, i = .ldStVx x
  · obtain ⟨x, rfl⟩ := hst
    exact ⟨_, _, exec_ldStVx s x, rfl, fun p _ => by cases p <;> rfl, .inl rfl⟩
  · obtain ⟨t, ht, hkeep, hother⟩ := exec_withSt s b (not_exists.mp hst)
    refine ⟨t, _, ht, hother, fun p hp => ?_, .inr ⟨hkeep, rfl⟩⟩
    cases p with
    | st => exact absurd rfl hp
    | _ => rfl

end Sys2Proof.Machine
end

section
/-! PROOFS. The Step transition (30_encoding.md R91): the result it reports, the poll of the keypad in AWAITING_KEY (R174),
and HALTED, which only Reset leaves (R208). -/

namespace Sys2Proof.Machine

variable {s t : State} {w : Word}

/-! ### The result of a Step -/

theorem step_total (s : State) : ∃ t, step s = .next t := by
  rw [step, stepOnce]
  split
  next => exact ⟨_, rfl⟩
  next => exact ⟨_, rfl⟩
  next =>
    rw [runStep]
    split
    next =>
      split
      next i _ => obtain ⟨t, ht, -⟩ := exec_endsIn s.advancePc i; exact ⟨t, ht⟩
      next => exact ⟨_, rfl⟩
    next => exact ⟨_, rfl⟩

theorem unknownWord_of_not_running (h : s.runState ≠ .running) : unknownWord s = none :=
  if_neg fun hrun => h hrun.1

theorem unknownWord_of_no_fetch (h : s.canFetch = false) : unknownWord s = none :=
  if_neg fun hfetch => Bool.false_ne_true (h.symm.trans hfetch.2)

theorem unknownWord_of_decodes {i : Instr} (hw : s.fetches w) (hi : decode w = .ok i) : unknownWord s = none := by
  obtain ⟨hrun, hfetch, hword⟩ := s.fetchWord_of_fetches w hw
  simp [unknownWord, hrun, hfetch, hword, hi]

theorem unknownWord_of_error {e : DecodeError} (hw : s.fetches w) (he : decode w = .error e) :
    unknownWord s = some w := by
  obtain ⟨hrun, hfetch, hword⟩ := s.fetchWord_of_fetches w hw
  simp [unknownWord, hrun, hfetch, hword, he]

/-- A Step that met no unknown opcode reports what its last state shows. -/
theorem stepResult_of_known (hknown : unknownWord s = none) (h : step s = .next t) : stepResult s = resultOf t := by
  have h' : stepOnce s = .next t := h
  rw [stepResult, hknown]
  simp only [h']

theorem stepResult_of_error {e : DecodeError} (hw : s.fetches w) (he : decode w = .error e) :
    stepResult s = .unknownOpcode s.pc w := by
  rw [stepResult, unknownWord_of_error hw he]

theorem step_of_halted (h : s.runState = .halted) : step s = .next s := by
  rw [step, stepOnce, h]

theorem step_of_awaiting (h : s.runState = .awaitingKey) : step s = .next s.pollKey := by
  rw [step, stepOnce, h]

/-- What the result `r` of the Step from `s` to `t` says (R91). -/
def ResultTells (r : StepResult) (s t : State) : Prop :=
  match r with
  | .ok => t.runState = .running
  | .waiting => t.runState = .awaitingKey
  | .unknownOpcode addr _ => t.runState = .running ∧ addr = s.pc ∧ t.pc = s.pc + 2
  | .fault c => t.runState = .halted ∧ t.faultCause = c

theorem resultTells_resultOf (s t : State) : ResultTells (resultOf t) s t := by
  rw [resultOf]
  split
  next h => exact h
  next h => exact h
  next h => exact ⟨h, rfl⟩

theorem resultTells_of_known (hknown : unknownWord s = none) (h : step s = .next t) :
    ResultTells (stepResult s) s t := by
  rw [stepResult_of_known hknown h]
  exact resultTells_resultOf s t

/-! ### Frames -/

theorem State.tick_onlyChanges (s : State) : s.onlyChanges s.tick fun p => p = .dt ∨ p = .st := by
  intro p hp
  cases p with
  | dt => exact absurd (.inl rfl) hp
  | st => exact absurd (.inr rfl) hp
  | _ => rfl

theorem State.setKey_onlyChanges (s : State) (k : Fin 16) (b : Bool) :
    s.onlyChanges (s.setKey k b) fun p => p = .key k := by
  intro p hp
  cases p with
  | key j =>
    have hne : k.val ≠ j.val := fun e => hp (congrArg Part.key (Fin.ext e.symm))
    exact Vector.getElem_set_ne k.isLt j.isLt hne
  | _ => rfl

theorem Part.same_refl (p : Part) (s : State) : p.same s s := by
  cases p <;> rfl

theorem State.onlyChanges_refl (s : State) (allowed : Part → Prop) : s.onlyChanges s allowed :=
  fun p _ => p.same_refl s

theorem State.onlyChanges_mono {P Q : Part → Prop} (h : s.onlyChanges t P) (hPQ : ∀ p, P p → Q p) :
    s.onlyChanges t Q :=
  fun p hp => h p fun hP => hp (hPQ p hP)

/-! ### The poll -/

theorem keyByte_toNat (k : Fin 16) : (keyByte k).toNat = k.val := by
  simp [keyByte]
  omega

/-- The state the poll leaves when key `k` answers the wait (R174). -/
def State.resumed (s : State) (k : Fin 16) : State :=
  { (s.setV s.waitX (keyByte k)).advancePc with runState := .running }

theorem State.pollKey_of_key {k : Fin 16} (h : s.leastKey = some k) : s.pollKey = s.resumed k := by
  simp only [State.pollKey, h]
  rfl

theorem State.pollKey_of_noKey (h : s.leastKey = none) : s.pollKey = s := by
  simp only [State.pollKey, h]

theorem State.resumed_onlyChanges (s : State) (k : Fin 16) :
    s.onlyChanges (s.resumed k) fun p => p = .v s.waitX ∨ p = .pc ∨ p = .runState := by
  intro p hp
  cases p with
  | v x => exact s.setV_onlyChanges s.waitX (keyByte k) (.v x) fun e => hp (.inl e)
  | pc => exact absurd (.inr (.inl rfl)) hp
  | runState => exact absurd (.inr (.inr rfl)) hp
  | _ => rfl

/-! ### HALTED -/

/-- The byte offered to a Step in HALTED is gone after it, and nothing else has changed. -/
theorem stepWith_of_halted {r : Byte} (h : s.runState = .halted) : stepWith r s = .next s := by
  have hstep : step { s with randIn := r :: s.randIn } = .next { s with randIn := r :: s.randIn } := step_of_halted h
  rw [stepWith, hstep]

/-! ### The obligations -/

/-- Settles O6: the Step passes its three checks and hands the advanced state to the dispatch. -/
theorem stepRunsDecodedInstruction : Obligations.StepRunsDecodedInstruction := by
  unfold Obligations.StepRunsDecodedInstruction
  exact fun s w i hw hi => step_of_fetches s hw hi

/-- Settles O7: the Step advances PC past the word and reports it with the old PC. -/
theorem unknownOpcodeIsReported : Obligations.UnknownOpcodeIsReported := by
  unfold Obligations.UnknownOpcodeIsReported
  intro s w hw hunknown
  cases hd : decode w with
  | ok i => exact absurd hd (hunknown i)
  | error e =>
    exact ⟨_, step_of_fetches_unknown hw hunknown, rfl, s.advancePc_onlyChanges, stepResult_of_error hw hd⟩

/-- Settles O8: the fetch bound turns the Step into a fault entry, whose cause is the result. -/
theorem fetchBeyondMemoryHalts : Obligations.FetchBeyondMemoryHalts := by
  unfold Obligations.FetchBeyondMemoryHalts
  intro s hrun hpc
  have hfetch : s.canFetch = false := by simp [State.canFetch, Config.maxFetchPc]; omega
  have hstep := step_of_pc_gt s hrun hpc
  exact ⟨_, hstep, s.raise_faultsInto _, stepResult_of_known (unknownWord_of_no_fetch hfetch) hstep⟩

/-- Settles O9: a Step in HALTED is the identity, with or without a byte offered; Tick and SetKey change timers and keys. -/
theorem haltedUntilReset : Obligations.HaltedUntilReset := by
  unfold Obligations.HaltedUntilReset
  intro s hhalt
  have hknown : unknownWord s = none := unknownWord_of_not_running (by rw [hhalt]; decide)
  refine ⟨step_of_halted hhalt, ?_, fun tr t hreset h => ?_⟩
  · rw [stepResult_of_known hknown (step_of_halted hhalt), resultOf, hhalt]
  · cases tr with
    | reset g c rom => exact absurd rfl (hreset g c rom)
    | step rand =>
      cases (stepWith_of_halted (r := rand) hhalt).symm.trans h
      exact s.onlyChanges_refl _
    | tick =>
      cases h
      exact State.onlyChanges_mono s.tick_onlyChanges fun p hp => hp.elim .inl fun h => .inr (.inl h)
    | setKey k b =>
      obtain ⟨-, rfl⟩ := apply_setKey_eq_next_iff.mp h
      exact State.onlyChanges_mono (s.setKey_onlyChanges _ b) fun p hp => .inr (.inr ⟨_, hp⟩)

/-- Settles O10: the least pressed key is what `State.leastKey` finds, and the poll resumes with it or does nothing. -/
theorem awaitingStepPollsKeys : Obligations.AwaitingStepPollsKeys := by
  unfold Obligations.AwaitingStepPollsKeys
  intro s hwait
  have hknown : unknownWord s = none := unknownWord_of_not_running (by rw [hwait]; decide)
  have hstep := step_of_awaiting hwait
  refine ⟨fun k hk hleast => ?_, fun hnone => ?_⟩
  · rw [State.pollKey_of_key ((s.leastKey_eq_some_iff k).mpr ⟨hk, hleast⟩)] at hstep
    have hval : (s.resumed k).v[s.waitX] = keyByte k := s.setV_self s.waitX _
    exact ⟨_, hstep, by rw [hval, keyByte_toNat], rfl, rfl, s.resumed_onlyChanges k, stepResult_of_known hknown hstep⟩
  · rw [State.pollKey_of_noKey (s.leastKey_eq_none_iff.mpr hnone)] at hstep
    exact ⟨hstep, by rw [stepResult_of_known hknown hstep, resultOf, hwait]⟩

/-- Settles O11: of the ways a Step can go, only the unknown word is reported apart from the state it ends in. -/
theorem stepResultTellsRunState : Obligations.StepResultTellsRunState := by
  unfold Obligations.StepResultTellsRunState
  intro s
  obtain ⟨t, h⟩ := step_total s
  refine ⟨t, h, ?_⟩
  change ResultTells (stepResult s) s t
  obtain ⟨hr, -⟩ | ⟨hr, -⟩ | ⟨-, hfetch, -⟩ | ⟨w, hw, ⟨e, he, rfl⟩ | ⟨i, hi, -⟩⟩ := step_cases h
  · exact resultTells_of_known (unknownWord_of_not_running (by rw [hr]; decide)) h
  · exact resultTells_of_known (unknownWord_of_not_running (by rw [hr]; decide)) h
  · exact resultTells_of_known (unknownWord_of_no_fetch hfetch) h
  · rw [stepResult_of_error hw he]
    exact ⟨hw.1, rfl, rfl⟩
  · exact resultTells_of_known (unknownWord_of_decodes hw hi) h

end Sys2Proof.Machine
end

section
/-! PROOFS. The invariant of reachable states (10_state.md R35, R31): it holds after Reset and every transition keeps it. An
instruction starts from a state that meets more than the invariant (`State.Executing`), and that is what the bounds on PC and
on the stack entries come from. -/

namespace Sys2Proof.Machine

variable {s t : State} {i : Instr}

/-! ### The parts of the invariant -/

theorem State.inv_of_running (hmem : t.mem.wf = true) (hpc : t.pcInRange) (hstack : t.stackInRange)
    (hrun : t.runState = .running) (hcause : t.faultCause = none) : t.Inv :=
  ⟨hmem, hpc, hstack, by simp [State.causeMatches, hrun, hcause], fun hwait => by simp [hrun] at hwait⟩

/-- R207: fault entry keeps memory, PC and the stack, and records the cause with HALTED. -/
theorem State.inv_raise (c : Fault) (hmem : s.mem.wf = true) (hpc : s.pcInRange) (hstack : s.stackInRange) :
    (s.raise c).Inv :=
  ⟨hmem, hpc, hstack, by simp [State.causeMatches], nofun⟩

theorem State.faultCause_eq_none (hcause : s.causeMatches) (h : s.runState ≠ .halted) : s.faultCause = none :=
  not_not.mp fun hne => h (hcause.mp hne)

theorem State.pc_le_of_canFetch (h : s.canFetch = true) : s.pc.toNat ≤ 4094 := by
  simpa [State.canFetch, Config.maxFetchPc] using h

theorem State.pc_add_two_toNat (h : s.pc.toNat ≤ 4094) : (s.pc + 2).toNat = s.pc.toNat + 2 := by
  bv_omega

/-- R35 (c) as a bound: no stack entry is above the last address a CALL can push. -/
theorem State.stack_toNat_le (h : s.stackInRange) (k : Nat) (hk : k < 16) : s.stack[k].toNat ≤ 4096 := by
  obtain h0 | ⟨-, hle⟩ := h ⟨k, hk⟩
  · have : s.stack[k] = 0 := h0
    simp [this]
  · exact hle

/-! ### A state in which an instruction starts -/

/-- What holds when an instruction starts, PC advanced past it (R91): PC is an address a CALL may push, and the machine runs
without a recorded fault. -/
structure State.Executing (s : State) : Prop where
  mem : s.mem.wf = true
  pcGe : 2 ≤ s.pc.toNat
  pcLe : s.pc.toNat ≤ 4096
  stack : s.stackInRange
  run : s.runState = .running
  cause : s.faultCause = none

theorem State.executing_of_fetches {w : Word} (hinv : s.Inv) (hw : s.fetches w) : s.advancePc.Executing := by
  obtain ⟨hmem, -, hstack, hcause, -⟩ := hinv
  obtain ⟨hrun, hpc, -⟩ := hw
  have hadvance : s.advancePc.pc.toNat = s.pc.toNat + 2 := State.pc_add_two_toNat hpc
  have hnone : s.faultCause = none := State.faultCause_eq_none hcause (by rw [hrun]; decide)
  exact ⟨hmem, by omega, by omega, hstack, hrun, hnone⟩

namespace State.Executing

theorem pcInRange (he : s.Executing) : s.pcInRange := he.pcLe.trans (by decide)

/-- An instruction that keeps the run state needs to keep memory, PC and the stack in order. -/
theorem inv (he : s.Executing) (hmem : t.mem.wf = true) (hpc : t.pcInRange) (hstack : t.stackInRange)
    (hrun : t.runState = s.runState) (hcause : t.faultCause = s.faultCause) : t.Inv :=
  State.inv_of_running hmem hpc hstack (hrun.trans he.run) (hcause.trans he.cause)

theorem inv_of_kept (he : s.Executing) (hmem : t.mem = s.mem) (hpc : t.pc = s.pc) (hstack : t.stack = s.stack)
    (hrun : t.runState = s.runState) (hcause : t.faultCause = s.faultCause) : t.Inv := by
  refine he.inv ?_ ?_ ?_ hrun hcause
  · rw [hmem]; exact he.mem
  · rw [State.pcInRange, hpc]; exact he.pcInRange
  · rw [State.stackInRange, hstack]; exact he.stack

/-- A jump within R35 (b) keeps the invariant. -/
theorem inv_setPc (he : s.Executing) {w : Word} (hw : w.toNat ≤ 0x10FE) : (s.setPc w).Inv :=
  he.inv he.mem hw he.stack rfl rfl

theorem inv_skipIf (he : s.Executing) (c : Bool) : (s.skipIf c).Inv := by
  cases c with
  | false => exact he.inv_setPc he.pcInRange
  | true =>
    have hle := he.pcLe
    exact he.inv_setPc (w := s.pc + 2) (by bv_omega)

/-- R35 (c): the entry a CALL writes is the address after it. -/
theorem inv_callTo (he : s.Executing) (nnn : BitVec 12) (h : s.sp.val < 16) : (s.callTo nnn h).Inv := by
  refine he.inv he.mem ?_ (fun k => ?_) rfl rfl
  · have := nnn.isLt
    rw [State.pcInRange, s.callTo_pc_toNat nnn h]
    omega
  · by_cases hk : s.sp.val = k.val
    · refine .inr ?_
      have hentry : (s.callTo nnn h).stack[k] = s.pc := by
        simp only [Fin.getElem_fin, ← hk]
        exact s.callTo_stack_top nnn h
      rw [hentry]
      exact ⟨he.pcGe, he.pcLe⟩
    · have hkept : (s.callTo nnn h).stack[k] = s.stack[k] := Vector.getElem_set_ne h k.isLt hk
      rw [hkept]
      exact he.stack k

theorem inv_returned (he : s.Executing) (h : 0 < s.sp.val) : (s.returned h).Inv := by
  have hentry := State.stack_toNat_le he.stack (s.sp.val - 1) (by omega)
  exact he.inv he.mem (hentry.trans (by decide)) he.stack rfl rfl

/-- R35 (b): the largest target of JP_V0 is 0xFFF + 0xFF. -/
theorem offsetTarget_le (s : State) (nnn : BitVec 12) : (s.offsetTarget nnn).toNat ≤ 0x10FE := by
  have := nnn.isLt
  have := s.v[0].isLt
  rw [s.offsetTarget_toNat]
  omega

/-- An instruction that completes keeps the invariant; LD_VX_K, which may leave RUNNING, is `inv_suspended`. -/
theorem inv_of_effect (he : s.Executing) (h : Effect i s t) (hk : ∀ x, i ≠ .ldVxK x) : t.Inv := by
  cases i with
  | ldVxK x => exact absurd rfl (hk x)
  | ret => obtain ⟨h, rfl⟩ := h; exact he.inv_returned h
  | call nnn => obtain ⟨h, rfl⟩ := h; exact he.inv_callTo nnn h
  | jp nnn =>
    have := nnn.isLt
    cases h
    exact he.inv_setPc (by rw [zextNnn_toNat]; omega)
  | jpV0 nnn => cases h; exact he.inv_setPc (offsetTarget_le s nnn)
  | seImm | sneImm | seReg | sneReg | skp | sknp => obtain ⟨c, rfl⟩ := h; exact he.inv_skipIf c
  | ldB | stRegs =>
    obtain ⟨-, bytes, rfl⟩ := h
    exact he.inv (Memory.writeBytes_wf bytes s.mem _ he.mem) he.pcInRange he.stack rfl rfl
  | cls | ldStVx => cases h; exact he.inv_of_kept rfl rfl rfl rfl rfl
  | addReg | sub | shr | subn | shl => obtain ⟨_, _, rfl⟩ := h; exact he.inv_of_kept rfl rfl rfl rfl rfl
  | rnd =>
    obtain ⟨_, rfl⟩ := h
    exact he.inv_of_kept s.takeRand_mem s.takeRand_pc s.takeRand_stack s.takeRand_runState s.takeRand_faultCause
  | ldRegs x =>
    obtain ⟨bytes, rfl⟩ := h
    exact he.inv_of_kept (s.setRegBlock_mem x bytes) (s.setRegBlock_pc x bytes) (s.setRegBlock_stack x bytes)
      (s.setRegBlock_runState x bytes) (s.setRegBlock_faultCause x bytes)
  | _ => obtain ⟨_, rfl⟩ := h; exact he.inv_of_kept rfl rfl rfl rfl rfl

end State.Executing

/-- R31: a suspended LD_VX_K has PC back at its own word, and `WAIT_X` is the `x` of that word. -/
theorem State.inv_suspended {w : Word} {x : Reg} (hinv : s.Inv) (hw : s.fetches w) (hi : decode w = .ok (.ldVxK x)) :
    (s.advancePc.suspended x).Inv := by
  obtain ⟨hmem, hpc, hstack, hcause, -⟩ := hinv
  obtain ⟨hrun, hfetch, hword⟩ := s.fetchWord_of_fetches w hw
  have hback : (s.advancePc.suspended x).pc = s.pc := BitVec.add_sub_cancel s.pc 2
  have hnone : s.faultCause = none := State.faultCause_eq_none hcause (by rw [hrun]; decide)
  have hfetch' : (s.advancePc.suspended x).canFetch = s.canFetch := by rw [State.canFetch, State.canFetch, hback]
  have hword' : (s.advancePc.suspended x).fetchWord = s.fetchWord := by
    rw [State.fetchWord, State.fetchWord, hback]
    rfl
  refine ⟨hmem, ?_, hstack, ?_, fun _ => ⟨hfetch'.trans hfetch, ?_⟩⟩
  · rw [State.pcInRange, hback]; exact hpc
  · simp [State.causeMatches, State.suspended, hnone]
  · rw [hword', hword]; exact hi

/-! ### The Step -/

theorem exec_keeps_inv {w : Word} (hinv : s.Inv) (hw : s.fetches w) (hi : decode w = .ok i)
    (h : exec i s.advancePc = .next t) : t.Inv := by
  have he := State.executing_of_fetches hinv hw
  obtain heff | ⟨c, -, rfl⟩ := endsIn_of_exec h
  · by_cases hk : ∃ x, i = .ldVxK x
    · obtain ⟨x, rfl⟩ := hk
      obtain ⟨_, rfl⟩ | rfl := heff
      · exact he.inv_of_kept rfl rfl rfl rfl rfl
      · exact State.inv_suspended hinv hw hi
    · exact he.inv_of_effect heff (not_exists.mp hk)
  · exact State.inv_raise c he.mem he.pcInRange he.stack

/-- R31 bounds PC while a key is awaited, so the resumed Step keeps PC in range. -/
theorem State.inv_pollKey (hinv : s.Inv) (hwait : s.runState = .awaitingKey) : s.pollKey.Inv := by
  cases hkey : s.leastKey with
  | none => rw [State.pollKey_of_noKey hkey]; exact hinv
  | some k =>
    obtain ⟨hmem, -, hstack, hcause, hmatches⟩ := hinv
    have hpc : (s.resumed k).pc.toNat = s.pc.toNat + 2 :=
      State.pc_add_two_toNat (State.pc_le_of_canFetch (hmatches hwait).1)
    have hle := State.pc_le_of_canFetch (hmatches hwait).1
    have hnone : s.faultCause = none := State.faultCause_eq_none hcause (by rw [hwait]; decide)
    rw [State.pollKey_of_key hkey]
    refine State.inv_of_running hmem ?_ hstack rfl hnone
    rw [State.pcInRange, hpc]
    omega

theorem step_keeps_inv (hinv : s.Inv) (h : step s = .next t) : t.Inv := by
  obtain ⟨-, rfl⟩ | ⟨hwait, rfl⟩ | ⟨-, -, rfl⟩ | ⟨w, hw, ⟨e, -, rfl⟩ | ⟨i, hi, hexec⟩⟩ := step_cases h
  · exact hinv
  · exact State.inv_pollKey hinv hwait
  · obtain ⟨hmem, hpc, hstack, -, -⟩ := hinv
    exact State.inv_raise _ hmem hpc hstack
  · have he := State.executing_of_fetches hinv hw
    exact he.inv_of_kept rfl rfl rfl rfl rfl
  · exact exec_keeps_inv hinv hw hi hexec

/-! ### The host's transitions -/

theorem State.inv_resetTo (s : State) (g : Vector Byte 80) (c : ShiftSrc) (rom : List Byte) : (s.resetTo g c rom).Inv := by
  refine State.inv_of_running ?_ (by decide : (0x200 : Nat) ≤ 0x10FE) (fun k => .inl ?_) rfl rfl
  · exact Memory.writeBytes_wf _ _ _ (Memory.writeBytes_wf _ _ _ rfl)
  · exact Vector.getElem_replicate k.isLt

theorem State.inv_reset : State.reset.Inv :=
  State.inv_of_running Memory.reset_wf (by decide : (0x200 : Nat) ≤ 0x10FE)
    (fun k => .inl (Vector.getElem_replicate k.isLt)) rfl rfl

theorem apply_keeps_inv {tr : Transition} (hinv : s.Inv) (h : apply tr s = .next t) : t.Inv := by
  cases tr with
  | reset g c rom =>
    rw [apply] at h
    split at h <;> cases h
    exact s.inv_resetTo g c rom
  | step rand =>
    obtain ⟨u, hu, rfl⟩ := stepWith_cases h
    have hoffered : ({ s with randIn := rand :: s.randIn } : State).Inv := hinv
    have hu_inv : u.Inv := step_keeps_inv hoffered hu
    exact hu_inv
  | tick => cases h; exact hinv
  | setKey k b => obtain ⟨-, rfl⟩ := apply_setKey_eq_next_iff.mp h; exact hinv

theorem applyAll_keeps_inv (trs : List Transition) (hinv : s.Inv) (h : applyAll trs s = .next t) : t.Inv := by
  induction trs generalizing s with
  | nil => cases h; exact hinv
  | cons tr trs ih =>
    rw [applyAll] at h
    split at h
    next u hu => exact ih (apply_keeps_inv hinv hu) h
    all_goals cases h

/-! ### Memory below the load offset -/

/-- R205: the two instructions that store do so from 0x200 on. -/
theorem exec_keeps_low {a : Nat} (ha : a < 0x200) (h : exec i s = .next t) : t.mem.read a = s.mem.read a := by
  obtain ⟨-, -, -, -, -, -, -, -, hwriters, -⟩ := onlyItsWritersChangeState i s t h
  by_cases hmem : t.mem = s.mem
  · rw [hmem]
  · obtain ⟨x, rfl | rfl⟩ := hwriters hmem <;> obtain ⟨hlo, bytes, rfl⟩ | ⟨c, -, rfl⟩ := endsIn_of_exec h
    · exact Memory.read_writeBytes_outside bytes s.mem _ a (.inl (by omega))
    · rfl
    · exact Memory.read_writeBytes_outside bytes s.mem _ a (.inl (by omega))
    · rfl

theorem State.pollKey_mem (s : State) : s.pollKey.mem = s.mem := by
  rw [State.pollKey]
  split <;> rfl

theorem step_keeps_low {a : Nat} (ha : a < 0x200) (h : step s = .next t) : t.mem.read a = s.mem.read a := by
  obtain ⟨-, rfl⟩ | ⟨-, rfl⟩ | ⟨-, -, rfl⟩ | ⟨w, -, ⟨e, -, rfl⟩ | ⟨i, -, hexec⟩⟩ := step_cases h
  · rfl
  · rw [s.pollKey_mem]
  · rfl
  · rfl
  · exact (exec_keeps_low ha hexec).trans rfl

/-! ### The obligations -/

/-- Settles O13: a Step is nothing, a poll, a fetch fault, an unknown word passed over or an instruction, and each keeps the
invariant. -/
theorem stepKeepsInvariant : Obligations.StepKeepsInvariant := by
  unfold Obligations.StepKeepsInvariant
  exact fun s t hinv h => step_keeps_inv hinv h

/-- Settles O14, by induction on the schedule; Reset establishes the invariant and the other transitions keep it. -/
theorem scheduleKeepsInvariant : Obligations.ScheduleKeepsInvariant := by
  unfold Obligations.ScheduleKeepsInvariant
  exact fun trs s t hinv h => applyAll_keeps_inv trs hinv h

/-- Settles O12: memory as after Reset, an empty stack, PC at 0x200, RUNNING with no cause. -/
theorem invariantAtReset : Obligations.InvariantAtReset := by
  unfold Obligations.InvariantAtReset
  exact State.inv_reset

/-- Settles O15: only a Step of LD_B or ST_REGS writes memory, and a store below 0x200 is a fault entry. -/
theorem lowMemoryIsImmutable : Obligations.LowMemoryIsImmutable := by
  unfold Obligations.LowMemoryIsImmutable
  intro tr s t hreset h a ha
  cases tr with
  | reset g c rom => exact absurd rfl (hreset g c rom)
  | step rand =>
    obtain ⟨u, hu, rfl⟩ := stepWith_cases h
    exact step_keeps_low (s := { s with randIn := rand :: s.randIn }) (t := u) ha hu
  | tick => cases h; rfl
  | setKey k b => obtain ⟨-, rfl⟩ := apply_setKey_eq_next_iff.mp h; rfl

end Sys2Proof.Machine
end

section
/-! PROOFS. SUBN and the shifts (41_load_alu.md R129 to R131), and arithmetic on the index register (42_index_memory.md R141,
R142): one equation for each instruction, and the results and the bits shifted out as numbers. -/

namespace Sys2Proof.Machine

variable (s : State)

/-! ### The ALU group -/

theorem exec_subn (x y : Reg) :
    exec (.subn x y) s = .next (s.setWithFlag x (s.v[y] - s.v[x]) (notBorrowFlag s.v[y] s.v[x])) := rfl

/-- R32: the source of a shift is the register SHIFT_SRC names. -/
theorem shiftOperand_eq (x y : Reg) :
    shiftOperand s.shiftSrc x y s = if s.shiftSrc = .x then s.v[x] else s.v[y] := by
  cases h : s.shiftSrc <;> simp [shiftOperand]

section
variable {x y : Reg} {b : Byte} (hb : b = if s.shiftSrc = .x then s.v[x] else s.v[y])
include hb

theorem exec_shr : exec (.shr x y) s = .next (s.setWithFlag x (b >>> 1) (shiftedOutRight b)) := by
  rw [hb, ← shiftOperand_eq]
  rfl

theorem exec_shl : exec (.shl x y) s = .next (s.setWithFlag x (b <<< 1) (shiftedOutLeft b)) := by
  rw [hb, ← shiftOperand_eq]
  rfl

end

/-- A flag that is bit `k` of a byte, as a number. -/
theorem flagByte_getLsbD_toNat (b : Byte) (k : Nat) : (flagByte (b.getLsbD k)).toNat = b.toNat / 2 ^ k % 2 := by
  rw [BitVec.getLsbD, Nat.testBit_eq_decide_div_mod_eq, flagByte_toNat]
  split <;> omega

theorem shiftedOutRight_toNat (b : Byte) : (shiftedOutRight b).toNat = b.toNat % 2 := by
  rw [shiftedOutRight, flagByte_getLsbD_toNat, Nat.pow_zero, Nat.div_one]

theorem shiftedOutLeft_toNat (b : Byte) : (shiftedOutLeft b).toNat = b.toNat / 128 := by
  have hb := b.isLt
  rw [shiftedOutLeft, flagByte_getLsbD_toNat]
  omega

theorem byte_toNat_shiftRight_one (b : Byte) : (b >>> 1).toNat = b.toNat / 2 := by
  rw [BitVec.toNat_ushiftRight, Nat.shiftRight_eq_div_pow, Nat.pow_one]

theorem byte_toNat_shiftLeft_one (b : Byte) : (b <<< 1).toNat = b.toNat * 2 % 256 := by
  rw [BitVec.toNat_shiftLeft, Nat.shiftLeft_eq, Nat.pow_one]

/-! ### The index register -/

theorem exec_addI (x : Reg) : exec (.addI x) s = .next (s.setI (s.i + s.v[x].setWidth 16)) := rfl

theorem exec_ldF (x : Reg) : exec (.ldF x) s = .next (s.setI (glyphAddr s.v[x])) := rfl

theorem byte_setWidth_toNat (b : Byte) : (b.setWidth 16).toNat = b.toNat :=
  BitVec.toNat_setWidth_of_le (by decide)

/-- R142: five times a byte fits in 16 bits. -/
theorem glyphAddr_toNat (b : Byte) : (glyphAddr b).toNat = b.toNat * 5 := by
  have hb := b.isLt
  rw [glyphAddr, BitVec.toNat_mul, byte_setWidth_toNat]
  exact Nat.mod_eq_of_lt (by change b.toNat * 5 < 65536; omega)

/-! ### The obligations -/

/-- Settles O31: as for SUB, with the operands exchanged. -/
theorem reverseSubtractSetsNotBorrow : Obligations.ReverseSubtractSetsNotBorrow := by
  unfold Obligations.ReverseSubtractSetsNotBorrow
  refine fun x y s => ⟨_, exec_subn s x y, fun hx => ?_, ?_, s.setWithFlag_onlyChanges x _ _⟩
  · rw [s.setWithFlag_result _ _ hx, byte_toNat_sub_int]
  · rw [s.setWithFlag_flag, notBorrowFlag_toNat]

/-- Settles O32: both write the shifted source and then the bit it lost, whichever register the source is. -/
theorem shiftsSetShiftedOutBit : Obligations.ShiftsSetShiftedOutBit := by
  unfold Obligations.ShiftsSetShiftedOutBit
  refine fun x y s b hb => ⟨⟨_, exec_shr s hb, fun hx => ?_, ?_, s.setWithFlag_onlyChanges x _ _⟩,
    ⟨_, exec_shl s hb, fun hx => ?_, ?_, s.setWithFlag_onlyChanges x _ _⟩⟩
  · rw [s.setWithFlag_result _ _ hx, byte_toNat_shiftRight_one]
  · rw [s.setWithFlag_flag, shiftedOutRight_toNat]
  · rw [s.setWithFlag_result _ _ hx, byte_toNat_shiftLeft_one]
  · rw [s.setWithFlag_flag, shiftedOutLeft_toNat]

/-- Settles O35: each is one write of I, with a sum that wraps at 16 bits and a product that fits in them. -/
theorem indexArithmetic : Obligations.IndexArithmetic := by
  unfold Obligations.IndexArithmetic
  refine fun x s => ⟨⟨_, exec_addI s x, ?_, s.setI_onlyChanges _⟩, ⟨_, exec_ldF s x, ?_, s.setI_onlyChanges _⟩⟩
  · rw [s.setI_i, BitVec.toNat_add, byte_setWidth_toNat]
  · rw [s.setI_i, glyphAddr_toNat]

end Sys2Proof.Machine
end

section
/-! PROOFS. Memory access (20_memory.md R55, R56, R59, R62) and the block stores and loads through I (42_index_memory.md R143
to R145): the canonical form determines the list, a completed store byte by byte, and the faults of the ranges refused. -/

namespace Sys2Proof.Machine

variable (s : State)

/-! ### The canonical form -/

theorem Memory.wfFrom_cons_iff (lo a : Nat) (v : Byte) (m : Memory) :
    Memory.wfFrom lo ((a, v) :: m) = true ↔
      lo ≤ a ∧ a < 4096 ∧ v ≠ Memory.resetByte a ∧ Memory.wfFrom (a + 1) m = true := by
  simp [Memory.wfFrom, and_assoc]

theorem Memory.read_head (a : Nat) (v : Byte) (m : Memory) : Memory.read ((a, v) :: m) a = v := if_pos rfl

/-- The first listed cell is the first address that does not read as after Reset. -/
theorem Memory.head_le_of_read_eq {lo a b : Nat} {v u : Byte} {m n : Memory}
    (hm : Memory.wfFrom lo ((a, v) :: m) = true) (hn : Memory.wfFrom lo ((b, u) :: n) = true)
    (h : ∀ c, Memory.read ((a, v) :: m) c = Memory.read ((b, u) :: n) c) : b ≤ a := by
  by_contra hlt
  obtain ⟨-, -, hv, -⟩ := (Memory.wfFrom_cons_iff lo a v m).mp hm
  obtain ⟨hb, hb', hu, hrest⟩ := (Memory.wfFrom_cons_iff lo b u n).mp hn
  have hn' : Memory.wfFrom b ((b, u) :: n) = true := (Memory.wfFrom_cons_iff b b u n).mpr ⟨le_rfl, hb', hu, hrest⟩
  have hreset := Memory.read_of_lt _ b a hn' (by omega)
  rw [← h, Memory.read_head] at hreset
  exact hv hreset

theorem Memory.eq_of_read_eq {m n : Memory} {lo : Nat} (hm : Memory.wfFrom lo m = true)
    (hn : Memory.wfFrom lo n = true) (h : ∀ c, m.read c = n.read c) : m = n := by
  induction m generalizing n lo with
  | nil =>
    cases n with
    | nil => rfl
    | cons cell n =>
      obtain ⟨b, u⟩ := cell
      obtain ⟨-, -, hu, -⟩ := (Memory.wfFrom_cons_iff lo b u n).mp hn
      exact absurd ((Memory.read_head b u n).symm.trans (h b).symm) hu
  | cons cell m ih =>
    obtain ⟨a, v⟩ := cell
    obtain ⟨-, -, hv, hmrest⟩ := (Memory.wfFrom_cons_iff lo a v m).mp hm
    cases n with
    | nil => exact absurd ((Memory.read_head a v m).symm.trans (h a)) hv
    | cons cell n =>
      obtain ⟨b, u⟩ := cell
      obtain rfl : a = b := le_antisymm (Memory.head_le_of_read_eq hn hm fun c => (h c).symm)
        (Memory.head_le_of_read_eq hm hn h)
      obtain ⟨-, -, -, hnrest⟩ := (Memory.wfFrom_cons_iff lo a u n).mp hn
      obtain rfl : v = u := by simpa only [Memory.read_head] using h a
      have hrest : m = n := ih hmrest hnrest fun c => by
        by_cases hc : c = a
        · rw [hc, Memory.read_of_lt m (a + 1) a hmrest (by omega), Memory.read_of_lt n (a + 1) a hnrest (by omega)]
        · simpa only [Memory.read, if_neg hc] using h c
      rw [hrest]

/-! ### Completed stores -/

theorem State.writeByte_onlyChanges (a : Nat) (v : Byte) :
    s.onlyChanges { s with mem := s.mem.write a v } fun p => p = .mem a := by
  intro p hp
  cases p with
  | mem b => exact Memory.read_write_ne s.mem a b v fun e => hp (congrArg Part.mem e)
  | _ => rfl

section
variable {bytes : List Byte}

theorem State.stored_read_inside {k : Nat} (hk : k < bytes.length) (h : s.i.toNat + bytes.length ≤ 4096) :
    (s.stored bytes).mem.read (s.i.toNat + k) = bytes[k] :=
  Memory.read_writeBytes_inside bytes s.mem s.i.toNat k hk h

/-- A store changes only the bytes of its range. -/
theorem State.stored_onlyChanges :
    s.onlyChanges (s.stored bytes) fun p => ∃ k, k < bytes.length ∧ p = .mem (s.i.toNat + k) := by
  intro p hp
  cases p with
  | mem a =>
    refine Memory.read_writeBytes_outside bytes s.mem s.i.toNat a ?_
    by_contra hin
    exact hp ⟨a - s.i.toNat, by omega, congrArg Part.mem (by omega)⟩
  | _ => rfl

theorem State.fetchWord_toNat :
    s.fetchWord.toNat = (s.mem.read s.pc.toNat).toNat * 256 + (s.mem.read (s.pc.toNat + 1)).toNat := by
  rw [State.fetchWord, wordOfBytes, BitVec.toNat_append, ← Nat.shiftLeft_add_eq_or_of_lt (BitVec.isLt _),
    Nat.shiftLeft_eq]

/-- R62: the next fetch at `p` sees the bytes of the store. -/
theorem State.stored_fetchWord_toNat (p : Word) (h : s.i.toNat + bytes.length ≤ 4096) :
    ((s.stored bytes).setPc p).fetchWord.toNat =
      (s.byteAfterStore (s.effAddr 0) bytes p.toNat).toNat * 256 +
        (s.byteAfterStore (s.effAddr 0) bytes (p.toNat + 1)).toNat := by
  have hread : ∀ a, (s.stored bytes).mem.read a = s.byteAfterStore (s.effAddr 0) bytes a :=
    fun a => Memory.read_writeBytes bytes s.mem s.i.toNat a h
  rw [State.fetchWord_toNat, State.setPc_mem, State.setPc_pc, hread, hread]

end

/-! ### The two storing instructions -/

theorem exec_ldB_of_inRange {x : Reg} (hlo : 0x200 ≤ s.i.toNat) (hhi : s.i.toNat + 2 ≤ 4095) :
    exec (.ldB x) s = .next (s.stored (bcdDigits s.v[x])) := by
  rw [exec_ldB, storeThroughI_of_inRange s hlo (by rw [bcdDigits_length]; omega)]

theorem exec_stRegs_of_inRange {x : Reg} (hlo : 0x200 ≤ s.i.toNat) (hhi : s.i.toNat + x.val ≤ 4095) :
    exec (.stRegs x) s = .next (s.stored (s.regBlock x)) := by
  rw [exec_stRegs, storeThroughI_of_inRange s hlo (by rw [s.regBlock_length]; omega)]

/-- R143: three bytes with the values of the digits are the bytes LD_B stores. -/
theorem bcdDigits_eq {b hundreds tens units : Byte} (hh : hundreds.toNat = b.toNat / 100)
    (ht : tens.toNat = b.toNat / 10 % 10) (hu : units.toNat = b.toNat % 10) : bcdDigits b = [hundreds, tens, units] := by
  rw [bcdDigits, ← hh, ← ht, ← hu, BitVec.ofNat_toNat, BitVec.ofNat_toNat, BitVec.ofNat_toNat]
  simp

/-- R143: each digit fits in a byte. -/
theorem bcdDigits_toNat (b : Byte) :
    (bcdDigits b)[0].toNat = b.toNat / 100 ∧ (bcdDigits b)[1].toNat = b.toNat / 10 % 10 ∧
      (bcdDigits b)[2].toNat = b.toNat % 10 := by
  have hb := b.isLt
  simp only [bcdDigits, List.getElem_cons_zero, List.getElem_cons_succ, BitVec.toNat_ofNat]
  omega

/-! ### Loads of a block -/

theorem State.setRegBlock_onlyChanges (x : Reg) (bytes : List Byte) :
    s.onlyChanges (s.setRegBlock x bytes) fun p => ∃ k : Fin 16, k ≤ x ∧ p = .v k := by
  intro p hp
  cases p with
  | v k =>
    by_contra hne
    exact hp ⟨k, State.le_of_setRegBlock_ne hne, rfl⟩
  | _ => simp [Part.same]

theorem State.setRegBlock_readBytes_get (x : Reg) (a : Nat) {k : Fin 16} (hk : k ≤ x) :
    (s.setRegBlock x (s.mem.readBytes a (x.val + 1))).v[k] = s.mem.read (a + k.val) := by
  have hlt : k.val < (s.mem.readBytes a (x.val + 1)).length := by
    rw [Memory.readBytes_length]
    exact Nat.lt_succ_of_le hk
  rw [Fin.getElem_fin, s.setRegBlock_get x _ k.val k.isLt, if_pos (Fin.le_def.mp hk),
    List.getD_eq_getElem _ _ hlt, Memory.readBytes_get]

/-! ### The obligations -/

/-- Settles O16, by induction on the lists: their first cells are at the first address that does not read as after Reset. -/
theorem canonicalMemoriesAreEqual : Obligations.CanonicalMemoriesAreEqual := by
  unfold Obligations.CanonicalMemoriesAreEqual
  exact fun m n hm hn h => Memory.eq_of_read_eq hm hn h

/-- Settles O18: each address is below 0x200, in program memory, or above 4095, and the primitives answer accordingly. -/
theorem memoryPrimitivesCheckAddress : Obligations.MemoryPrimitivesCheckAddress := by
  unfold Obligations.MemoryPrimitivesCheckAddress
  refine fun s a v => ⟨s.memRead_of_le, fun h => ⟨s.memRead_of_gt h, s.memWrite_of_gt v h⟩, s.memWrite_of_low v,
    fun hlo hhi => ⟨_, s.memWrite_of_inRange v hlo hhi, ?_, s.writeByte_onlyChanges a v⟩⟩
  exact (Memory.read_write s.mem a a v (by omega)).trans (if_pos rfl)

/-- Settles O19: a fetch reads memory, and memory after a store is `byteAfterStore` at every address. -/
theorem fetchSeesStores : Obligations.FetchSeesStores := by
  unfold Obligations.FetchSeesStores
  intro s x p hlo _
  refine ⟨fun hhi => ?_, fun hundreds tens units hh ht hu hhi => ?_⟩
  · refine ⟨_, exec_stRegs_of_inRange s hlo hhi, s.stored_fetchWord_toNat p ?_⟩
    rw [s.regBlock_length]
    exact Nat.succ_le_succ hhi
  · rw [← bcdDigits_eq hh ht hu]
    exact ⟨_, exec_ldB_of_inRange s hlo hhi, s.stored_fetchWord_toNat p (Nat.succ_le_succ hhi)⟩

/-- Settles O36: the three digits are the bytes of the store, and a store changes its range alone. -/
theorem storeBcdWritesDigits : Obligations.StoreBcdWritesDigits := by
  unfold Obligations.StoreBcdWritesDigits
  intro x s hlo hhi
  obtain ⟨hhundreds, htens, hunits⟩ := bcdDigits_toNat s.v[x]
  have hread : ∀ k (hk : k < 3), (s.stored (bcdDigits s.v[x])).mem.read (s.effAddr k) = (bcdDigits s.v[x])[k] :=
    fun k hk => s.stored_read_inside hk (Nat.succ_le_succ hhi)
  refine ⟨_, exec_ldB_of_inRange s hlo hhi, ?_, ?_, ?_, State.onlyChanges_mono s.stored_onlyChanges ?_⟩
  · rw [hread 0 (by decide), hhundreds]
  · rw [hread 1 (by decide), htens]
  · rw [hread 2 (by decide), hunits]
  · rintro p ⟨k, hk, rfl⟩
    rw [bcdDigits_length] at hk
    interval_cases k <;> simp

/-- Settles O37: the registers are the bytes of the store, and a store changes its range alone. -/
theorem storeRegistersWritesBlock : Obligations.StoreRegistersWritesBlock := by
  unfold Obligations.StoreRegistersWritesBlock
  intro x s hlo hhi
  refine ⟨_, exec_stRegs_of_inRange s hlo hhi, fun k hk => ?_, State.onlyChanges_mono s.stored_onlyChanges ?_⟩
  · have hlt : k.val < (s.regBlock x).length := by rw [s.regBlock_length]; exact Nat.lt_succ_of_le hk
    rw [s.effAddr_eq, s.stored_read_inside hlt (by rw [s.regBlock_length]; exact Nat.succ_le_succ hhi), s.regBlock_get]
    rfl
  · rintro p ⟨k, hk, rfl⟩
    rw [s.regBlock_length] at hk
    exact ⟨⟨k, by omega⟩, Nat.le_of_lt_succ hk, rfl⟩

/-- Settles O38: the range check answers before anything is written, WriteProtected when the first byte is below 0x200. A range
that ends above 4095 begins above 0x200. -/
theorem storesOutsideProgramMemoryFault : Obligations.StoresOutsideProgramMemoryFault := by
  unfold Obligations.StoresOutsideProgramMemoryFault
  intro x s
  have hbcd : (bcdDigits s.v[x]).length = 3 := bcdDigits_length _
  have hblock : (s.regBlock x).length = x.val + 1 := s.regBlock_length x
  simp only [s.effAddr_eq, exec_ldB, exec_stRegs]
  refine ⟨fun hlo => ⟨⟨_, congrArg _ (storeThroughI_of_low s ?_ hlo), s.raise_faultsInto _⟩,
    ⟨_, congrArg _ (storeThroughI_of_low s ?_ hlo), s.raise_faultsInto _⟩⟩,
    fun hout => ⟨_, congrArg _ (storeThroughI_of_out s ?_ ?_ ?_), s.raise_faultsInto _⟩,
    fun hout => ⟨_, congrArg _ (storeThroughI_of_out s ?_ ?_ ?_), s.raise_faultsInto _⟩⟩ <;> omega

/-- Settles O39: the load reads the range and writes the registers up to `V[x]` with it. -/
theorem loadRegistersReadsBlock : Obligations.LoadRegistersReadsBlock := by
  unfold Obligations.LoadRegistersReadsBlock
  intro x s h
  exact ⟨_, exec_ldRegs_of_inRange s h, fun k hk => s.setRegBlock_readBytes_get x _ hk, s.setRegBlock_onlyChanges x _⟩

end Sys2Proof.Machine
end

section
/-! PROOFS. DRW (43_display.md R161, R162): the sprite in memory as the list of cells it lights, a draw as the exclusive or of
the display with that list, and the number of cells on it. -/

namespace Sys2Proof.Machine

variable (s : State) (x y : Reg) (n : BitVec 4)

/-! ### The cells of the sprite at I -/

/-- The cells the `n`-byte sprite at I lights when drawn at `(V[x], V[y])` (R161). -/
def State.litCells : List (Fin 32 × Fin 64) :=
  spriteCells s.v[x].toNat s.v[y].toNat (s.mem.readBytes s.i.toNat n.toNat)

theorem eq_wrapCell_iff (c : Fin 32 × Fin 64) (row col : Nat) :
    c = wrapCell row col ↔ c.1.val = row % 32 ∧ c.2.val = col % 64 := by
  rw [Prod.ext_iff, Fin.ext_iff, Fin.ext_iff]
  rfl

theorem State.mem_litCells_iff (c : Fin 32 × Fin 64) : c ∈ s.litCells x y n ↔ spriteLit s x y n c := by
  simp only [State.litCells, mem_spriteCells, spriteLit, Memory.readBytes_length, Memory.readBytes_get,
    eq_wrapCell_iff, s.effAddr_eq, exists_prop]

/-- R161 (f): a sprite has at most 15 rows, so it does not meet itself. -/
theorem State.litCells_nodup : (s.litCells x y n).Nodup := by
  have := n.isLt
  exact spriteCells_nodup _ _ _ (by rw [Memory.readBytes_length]; omega)

/-! ### A draw -/

/-- The state a DRW leaves that does not fault. -/
def State.drawn : State := s.drawSprite x y (s.mem.readBytes s.i.toNat n.toNat)

theorem exec_drw_of_fits (h : n = 0 ∨ s.effAddr (n.toNat - 1) ≤ 4095) :
    exec (.drw x y n) s = .next (s.drawn x y n) := by
  refine exec_drw_of_inRange s ?_
  obtain rfl | hle := h
  · exact .inl rfl
  · rw [s.effAddr_eq] at hle
    omega

theorem State.drawn_eq :
    s.drawn x y n = (s.setDisp (plotCells s.disp false (s.litCells x y n)).1).setV VF
      (flagByte (plotCells s.disp false (s.litCells x y n)).2) := rfl

theorem State.drawn_cell (c : Fin 32 × Fin 64) :
    (s.drawn x y n).disp.cell c = (s.disp.cell c ^^ decide (c ∈ s.litCells x y n)) :=
  plotCells_cell _ (s.litCells_nodup x y n) s.disp false c

theorem State.drawn_flag : (s.drawn x y n).v[VF] = flagByte ((s.litCells x y n).any s.disp.cell) := by
  rw [State.drawn_eq, State.setV_self, plotCells_flag _ (s.litCells_nodup x y n), Bool.false_or]

theorem State.drawn_onlyChanges : s.onlyChanges (s.drawn x y n) fun p => p = .v VF ∨ ∃ c, p = .disp c := by
  rw [State.drawn_eq]
  exact State.onlyChanges_mono (State.onlyChanges_trans (s.setDisp_onlyChanges _) (State.setV_onlyChanges _ VF _))
    fun p hp => hp.symm

theorem flagByte_eq_one_iff (c : Bool) : flagByte c = 1 ↔ c = true := by
  cases c <;> decide

theorem flagByte_eq_zero_iff (c : Bool) : flagByte c = 0 ↔ c = false := by
  cases c <;> decide

/-- The flag of a draw tells whether a lit cell was set before. -/
theorem State.drawn_flag_eq_one_iff :
    (s.drawn x y n).v[VF] = 1 ↔ ∃ c, spriteLit s x y n c ∧ s.disp.cell c = true := by
  rw [State.drawn_flag, flagByte_eq_one_iff, List.any_eq_true]
  simp only [s.mem_litCells_iff]

theorem State.drawn_flag_eq_zero_iff :
    (s.drawn x y n).v[VF] = 0 ↔ ¬ ∃ c, spriteLit s x y n c ∧ s.disp.cell c = true := by
  rw [← State.drawn_flag_eq_one_iff, State.drawn_flag, flagByte_eq_zero_iff, flagByte_eq_one_iff, Bool.not_eq_true]

/-! ### A second draw -/

/-- A draw that does not read VF finds the same sprite and the same coordinates again. -/
theorem State.drawn_litCells (hx : x ≠ VF) (hy : y ≠ VF) : (s.drawn x y n).litCells x y n = s.litCells x y n := by
  have hkeep : ∀ k : Reg, k ≠ VF → (s.drawn x y n).v[k] = s.v[k] := fun k hk =>
    s.drawn_onlyChanges x y n (.v k) (by simpa using hk)
  rw [State.litCells, hkeep x hx, hkeep y hy]
  rfl

/-! ### Counting -/

/-- The 1 bits of a byte, counted from either end. -/
theorem countP_getLsbD_reverse (b : Byte) :
    ((List.range 8).countP fun col => b.getLsbD (7 - col)) = (List.range 8).countP fun col => b.getLsbD col := by
  have hrev : (List.range 8).map (fun col => 7 - col) = (List.range 8).reverse := by decide
  rw [← List.countP_reverse, ← hrev, List.countP_map]
  rfl

theorem rowCells_length (vx row : Nat) (b : Byte) :
    (rowCells vx row b).length = (List.range 8).countP fun col => b.getLsbD col := by
  rw [rowCells, List.length_map, ← List.countP_eq_length_filter, countP_getLsbD_reverse]

theorem spriteCells_length (vx vy : Nat) (rows : List Byte) :
    (spriteCells vx vy rows).length = (rows.map fun b => (List.range 8).countP fun col => b.getLsbD col).sum := by
  induction rows generalizing vy with
  | nil => rfl
  | cons b rows ih => rw [spriteCells, List.length_append, rowCells_length, ih, List.map_cons, List.sum_cons]

theorem Memory.readBytes_eq_map (m : Memory) (a len : Nat) :
    m.readBytes a len = (List.range len).map fun k => m.read (a + k) := by
  apply List.ext_getElem
  · simp
  · intro k hk _
    simp

/-- The cells a draw changes are the lit ones. -/
theorem State.filter_drawn_ne :
    (Finset.univ.filter fun c => Display.cell (s.drawn x y n).disp c ≠ Display.cell s.disp c) =
      (s.litCells x y n).toFinset := by
  ext c
  rw [Finset.mem_filter, List.mem_toFinset, s.drawn_cell]
  cases Display.cell s.disp c <;> simp

/-! ### The obligations -/

/-- Settles O40: the loads check their whole range first; a sprite of no rows plots nothing and clears the flag. -/
theorem loadsBeyondMemoryFault : Obligations.LoadsBeyondMemoryFault := by
  unfold Obligations.LoadsBeyondMemoryFault
  refine fun x y n s => ⟨fun hout => ?_, fun hn hout => ?_, ?_⟩
  · exact ⟨_, exec_ldRegs_of_out s hout, s.raise_faultsInto _⟩
  · have h0 : n.toNat ≠ 0 := fun e => hn (BitVec.eq_of_toNat_eq e)
    rw [s.effAddr_eq] at hout
    exact ⟨_, exec_drw_of_out s h0 (by omega), s.raise_faultsInto _⟩
  · have hclear : s.drawn x y 0 = s.setV VF 0 := rfl
    refine ⟨_, exec_drw_of_fits s x y 0 (.inl rfl), ?_⟩
    rw [hclear]
    exact ⟨s.setV_self VF 0, s.setV_onlyChanges VF 0⟩

/-- Settles O42: a draw is the exclusive or of the display with the list of lit cells, and the flag asks whether one was set. -/
theorem drawTogglesSpriteCells : Obligations.DrawTogglesSpriteCells := by
  unfold Obligations.DrawTogglesSpriteCells
  refine fun x y n s hfits => ⟨_, exec_drw_of_fits s x y n hfits, fun c hlit => ?_, fun c hlit => ?_,
    (s.drawn_flag_eq_one_iff x y n).mpr, (s.drawn_flag_eq_zero_iff x y n).mpr, s.drawn_onlyChanges x y n⟩
  · rw [s.drawn_cell, decide_eq_true ((s.mem_litCells_iff x y n c).mpr hlit), Bool.xor_true]
  · rw [s.drawn_cell, decide_eq_false fun h => hlit ((s.mem_litCells_iff x y n c).mp h), Bool.xor_false]

/-- Settles O43: both draws use one list of cells, so the second undoes the first; a lit cell set between them was turned on. -/
theorem drawTwiceRestoresDisplay : Obligations.DrawTwiceRestoresDisplay := by
  unfold Obligations.DrawTwiceRestoresDisplay
  intro x y n s hx hy hfits
  have hcells := s.drawn_litCells x y n hx hy
  refine ⟨_, _, exec_drw_of_fits s x y n hfits, exec_drw_of_fits (s.drawn x y n) x y n hfits, ?_, ?_⟩
  · refine Display.ext_cell fun c => ?_
    rw [State.drawn_cell, hcells, State.drawn_cell, Bool.xor_assoc, Bool.xor_self, Bool.xor_false]
  · rw [State.drawn_flag, hcells, flagByte_eq_one_iff, List.any_eq_true]
    refine exists_congr fun c => ?_
    rw [State.drawn_cell]
    cases Display.cell s.disp c <;> simp

/-- Settles O44: the cells that differ are the lit cells, no two of them equal, one for each 1 bit. -/
theorem drawChangesAsManyCellsAsBits : Obligations.DrawChangesAsManyCellsAsBits := by
  unfold Obligations.DrawChangesAsManyCellsAsBits
  refine fun x y n s hfits => ⟨_, exec_drw_of_fits s x y n hfits, ?_⟩
  rw [s.filter_drawn_ne, List.toFinset_card_of_nodup (s.litCells_nodup x y n), State.litCells, spriteCells_length,
    Memory.readBytes_eq_map, List.map_map]
  rfl

end Sys2Proof.Machine
end

section
/-! PROOFS. Random and keypad instructions (44_timer_key_random.md R170 to R172, R174): the byte an RND reads and uses up, the
key a register selects, and the two ways LD_VX_K can go. -/

namespace Sys2Proof.Machine

variable (s : State)

/-! ### RND -/

theorem exec_rnd (x : Reg) (nn : Byte) : exec (.rnd x nn) s = .next (s.takeRand.setV x (s.rand &&& nn)) := rfl

/-- R170 bit by bit. -/
theorem State.setV_and_getLsbD (x : Reg) (a b : Byte) (k : Nat) :
    (s.setV x (a &&& b)).v[x].getLsbD k = (a.getLsbD k && b.getLsbD k) := by
  rw [s.setV_self, BitVec.getLsbD_and]

theorem State.randIn_onlyChanges (bytes : List Byte) : s.onlyChanges { s with randIn := bytes } fun p => p = .randIn := by
  intro p hp
  cases p with
  | randIn => exact absurd rfl hp
  | _ => rfl

theorem State.randIx_onlyChanges (n : Nat) : s.onlyChanges { s with randIx := n } fun p => p = .randIx := by
  intro p hp
  cases p with
  | randIx => exact absurd rfl hp
  | _ => rfl

/-- R216: the byte that comes with the Step is the one its RND reads, and no other is used up. -/
theorem stepWith_rnd {w : Word} {x : Reg} {nn rand : Byte} (hw : s.fetches w) (hi : decode w = .ok (.rnd x nn)) :
    stepWith rand s = .next (s.advancePc.setV x (rand &&& nn)) := by
  have hoffered : ({ s with randIn := rand :: s.randIn } : State).fetches w := hw
  rw [stepWith, step_of_fetches _ hoffered hi]
  rfl

/-! ### Keys -/

/-- R171: the low 4 bits of a register as a number. -/
theorem keySelect_val (b : Byte) : (keySelect b).val = b.toNat % 16 := by
  simp [keySelect]

theorem keySelect_eq {b : Byte} {k : Fin 16} (hk : k.val = b.toNat % 16) : keySelect b = k :=
  Fin.ext ((keySelect_val b).trans hk.symm)

theorem exec_skp (x : Reg) : exec (.skp x) s = .next (s.skipIf s.key[keySelect s.v[x]]) := rfl

theorem exec_sknp (x : Reg) : exec (.sknp x) s = .next (s.skipIf !s.key[keySelect s.v[x]]) := rfl

theorem State.suspended_onlyChanges (x : Reg) :
    s.onlyChanges (s.suspended x) fun p => p = .pc ∨ p = .waitX ∨ p = .runState := by
  intro p hp
  cases p with
  | pc => exact absurd (.inl rfl) hp
  | waitX => exact absurd (.inr (.inl rfl)) hp
  | runState => exact absurd (.inr (.inr rfl)) hp
  | _ => rfl

/-! ### The obligations -/

/-- Settles O45: RND reads the first byte that is there, uses that one up and writes one register. -/
theorem randomAndMasksRand : Obligations.RandomAndMasksRand := by
  unfold Obligations.RandomAndMasksRand
  refine fun x nn s => ⟨fun b bs hin => ?_, fun hin => ?_, fun w rand hw hi => ?_⟩
  · obtain ⟨hrand, htake⟩ := s.rand_of_supplied b bs hin
    have hexec := exec_rnd s x nn
    rw [hrand, htake] at hexec
    refine ⟨_, hexec, fun k _ => State.setV_and_getLsbD _ x b nn k, rfl, ?_⟩
    exact State.onlyChanges_mono (State.onlyChanges_trans (s.randIn_onlyChanges bs) (State.setV_onlyChanges _ x _))
      fun p hp => hp.symm
  · obtain ⟨hrand, htake⟩ := s.rand_of_none hin
    have hexec := exec_rnd s x nn
    rw [hrand, htake] at hexec
    refine ⟨_, hexec, fun k _ => State.setV_and_getLsbD _ x _ nn k, rfl, ?_⟩
    exact State.onlyChanges_mono (State.onlyChanges_trans (s.randIx_onlyChanges _) (State.setV_onlyChanges _ x _))
      fun p hp => hp.symm
  · refine ⟨_, stepWith_rnd s hw hi, fun k _ => State.setV_and_getLsbD _ x rand nn k, rfl, ?_⟩
    exact State.onlyChanges_mono (State.onlyChanges_trans s.advancePc_onlyChanges (State.setV_onlyChanges _ x _))
      fun p hp => hp.symm

/-- Settles O47: both are a `skipIf` on the one cell that the low 4 bits name. -/
theorem keySkipsTestSelectedCell : Obligations.KeySkipsTestSelectedCell := by
  unfold Obligations.KeySkipsTestSelectedCell
  intro x s k hk
  have hkey : s.key[keySelect s.v[x]] = s.key[k] := congrArg (fun j : Fin 16 => s.key[j]) (keySelect_eq hk)
  refine ⟨⟨_, exec_skp s x, s.skipIf_spec ?_⟩, ⟨_, exec_sknp s x, s.skipIf_spec ?_⟩⟩
  · rw [hkey]
  · rw [hkey, Bool.not_eq_true']

/-- Settles O50: with a key LD_VX_K is one write of `V[x]`, without one it is `State.suspended`. -/
theorem waitForKeyStoresOrSuspends : Obligations.WaitForKeyStoresOrSuspends := by
  unfold Obligations.WaitForKeyStoresOrSuspends
  refine fun x s => ⟨fun k hk hleast => ?_, fun hnone => ?_⟩
  · refine ⟨_, exec_ldVxK_of_key s x ((s.leastKey_eq_some_iff k).mpr ⟨hk, hleast⟩), ?_, s.setV_onlyChanges x _⟩
    rw [s.setV_self, keyByte_toNat]
  · exact ⟨_, exec_ldVxK_of_noKey s x (s.leastKey_eq_none_iff.mpr hnone), BitVec.sub_add_cancel s.pc 2, rfl, rfl,
      s.suspended_onlyChanges x⟩

end Sys2Proof.Machine
end

section
/-! PROOFS. The host's Tick, SetKey and Reset (60_exceptions.md R212, R214, 70_reset_and_hazards.md R230): which cell SetKey
writes and which key number it refuses, and the value of every piece of state after Reset. -/

namespace Sys2Proof.Machine

variable (s : State)

/-! ### SetKey -/

theorem apply_setKey (k : Fin 16) (b : Bool) : apply (.setKey k.val b) s = .next (s.setKey k b) :=
  apply_setKey_eq_next_iff.mpr ⟨k.isLt, by rw [Fin.ofNat_val_eq_self]⟩

theorem apply_setKey_of_gt {k : Nat} (b : Bool) (h : 15 < k) : apply (.setKey k b) s = .refused .keyOutOfRange := by
  have hk : keyWellFormed k = false := decide_eq_false (by omega)
  rw [apply, hk]
  rfl

theorem State.setKey_self (k : Fin 16) (b : Bool) : (s.setKey k b).key[k] = b := by
  rw [Fin.getElem_fin, State.setKey_get, if_pos rfl]

theorem State.setKey_of_same {k : Fin 16} {b : Bool} (h : s.key[k] = b) : s.setKey k b = s := by
  subst h
  rw [State.setKey]
  congr 1
  exact Vector.set_getElem_self k.isLt

/-! ### The obligations -/

/-- Settles O51: Tick counts both timers down, in every run state. -/
theorem tickDecrementsTimers : Obligations.TickDecrementsTimers := by
  unfold Obligations.TickDecrementsTimers
  exact fun s => ⟨_, rfl, countDown_toNat s.dt, countDown_toNat s.st, s.tick_onlyChanges⟩

/-- Settles O52: SetKey is one write of one cell; the check on the key number is the only refusal. -/
theorem setKeyWritesOneCell : Obligations.SetKeyWritesOneCell := by
  unfold Obligations.SetKeyWritesOneCell
  refine fun s b => ⟨fun k => ?_, fun k h => apply_setKey_of_gt s b h⟩
  exact ⟨_, apply_setKey s k b, s.setKey_self k b, s.setKey_onlyChanges k b, s.setKey_of_same⟩

/-- Settles O54: Reset builds a fresh state, whose memory is the glyphs, the image and zeros (`resetMemory_read`). -/
theorem resetSetsEveryPiece : Obligations.ResetSetsEveryPiece := by
  unfold Obligations.ResetSetsEveryPiece
  intro s g c rom hrom
  refine ⟨_, apply_reset_of_fits s g c hrom, fun x => Vector.getElem_replicate x.isLt, rfl, rfl, rfl,
    fun k => Vector.getElem_replicate k.isLt, rfl, rfl, Display.cell_clear, fun k => Vector.getElem_replicate k.isLt,
    rfl, rfl, rfl, rfl, fun a h => ?_, fun a hlo hhi => ?_, resetMemory_read_rom g rom hrom, fun a hlo hhi => ?_⟩
  · exact (resetMemory_read g rom hrom a).trans (dif_pos h)
  · exact resetMemory_read_unwritten g hrom hlo (.inl hhi)
  · exact resetMemory_read_unwritten g hrom (by omega) (.inr hlo)

end Sys2Proof.Machine
end
